-- ==== Sys2Proof/Word.lean ====
section
/-! DEFINITION. The word types of the block: the widths of `spec/10_state.md` rules R23 to R28 and of `spec/30_encoding.md` rules R95 to R98. -/

namespace Sys2Proof

/-- A u8: the request register OPR, a byte handed to the SPI transport, a byte of a glyph record (rules R23, R34, R33). -/
abbrev Byte := BitVec 8

/-- A 16-bit value: an s16 operand register, a GPIO row word, an SPI transaction word (rules R24, R27, R142). -/
abbrev Word := BitVec 16

/-- A u21 code point or glyph index (rule R24). -/
abbrev CodePoint := BitVec 21

end Sys2Proof
end

