-- ==== Sys2Proof/Config.lean ====
section
/-! DEFINITION. What is fixed when the block is built: the constants of rule R6 and the parameters of rule R7
(`spec/00_scope.md`), and the values the spec leaves unspecified, as constants without a body. -/

namespace Sys2Proof

/-- The parameter BACKEND (rule R7): which physical layout and which transport the block has. -/
inductive Backend where
  /-- Row-major 16-bit row words, bit-banged lines. -/
  | gpio
  /-- Byte-nibble layout, SPI transport. -/
  | spi
  deriving DecidableEq, Repr

/-- One record of the font ROM (rules R33, R190): a u16 code and the bitmap bytes, 16 of them in a well-formed
configuration (rule R8). -/
structure Glyph where
  /-- `RomCode`, the u16 character code. -/
  code : BitVec 16
  /-- `RomByte`, bitmap bytes d[0] to d[15]. -/
  bytes : List Byte
  deriving DecidableEq, Repr

/-- The configuration parameters of rule R7 that no request can change. BACKEND is not here: State holds only
the physical framebuffer of the configured backend (rule R26), and that says which backend it is
(`Machine.State.backend`). N_GLYPHS is the length of `font`. -/
structure Config where
  /-- COM_MODE, the COM-option command byte that INIT sends (rule R102). -/
  comMode : Byte
  /-- FONT, the glyph ROM (rule R33). -/
  font : List Glyph
  /-- TEXT_MAX, the capacity of the text buffer (rule R7). -/
  textMax : Nat
  /-- SPI_MODE, 0 or 3. No rule depends on it (rule R147). -/
  spiMode : Nat
  deriving DecidableEq, Repr

/-- N_GLYPHS (rule R7). -/
def Config.nGlyphs (c : Config) : Nat := c.font.length

/-- ROW_STRIDE (rule R6). -/
abbrev Config.rowStride : Nat := 16

/-- GLYPH_W and GLYPH_H (rule R6). -/
abbrev Config.glyphSize : Nat := 11

/-- GLYPH_BYTES (rule R6). -/
abbrev Config.glyphBytes : Nat := 16

/-- FALLBACK_ADV (rule R6). -/
abbrev Config.fallbackAdv : Nat := 11

/-- RAM_NIBBLES, the chip RAM addresses that INIT clears (rule R6). -/
abbrev Config.ramNibbles : Nat := 96

/-- The chip addresses that an SPI FLUSH writes, 0 to 47 (rules R63, R165). -/
abbrev Config.flushNibbles : Nat := 48

/-- SPI word size in bits (rules R6, R147). -/
def Config.spiWordBits : Nat := 8

/-- SPI_FREQ in hertz (rules R6, R147). No rule depends on it (rule R262). -/
def Config.spiFreqHz : Nat := 1000000

/-- The test font TF of `spec/95_test_vectors.md` section 1. -/
def Config.testFont : List Glyph :=
  [ { code := 0x0041, bytes := [0x80, 0x20, 0, 0, 0, 0, 0, 0x08, 0, 0, 0, 0, 0, 0x02, 0, 0x86] },
    { code := 0x0042, bytes := [0xFF, 0xE0, 0, 0, 0, 0, 0, 0, 0, 0, 0, 0, 0, 0, 0, 0x07] },
    { code := 0x4E2D, bytes := [0x80, 0, 0, 0, 0, 0, 0, 0, 0, 0, 0, 0, 0, 0, 0, 0x0B] } ]

/-- The configuration of `State.reset`: the defaults of rule R7 (COM_MODE 0x24, TEXT_MAX 65535, SPI_MODE 0) and,
for the open parameter FONT, the font TF that the spec's own programs run with (`spec/95_test_vectors.md`
section 4). DESIGN CHOICE for FONT, log entry 2. -/
def Config.standard : Config :=
  { comMode := 0x24, font := Config.testFont, textMax := 65535, spiMode := 0 }

/-- The value of row word y of the GPIO framebuffer after the n-th reset: unspecified (rules R39, R40, item U6),
so no body. Log entry 4. -/
opaque Config.freeRowWord : Nat → Nat → Word

/-- The value of byte i of the SPI framebuffer after the n-th reset: unspecified (rules R39, R40, item U6),
so no body. Log entry 4. -/
opaque Config.freeFbByte : Nat → Nat → Byte

/-- Where the pin event of line k stands among the pin events of the n-th reset. Rule R250 says which events a
reset appends and not in which order, so no body. Log entry 5. -/
opaque Config.freeResetRank : Nat → Nat → Nat

end Sys2Proof
end

