-- ==== Sys2Proof/Machine/State.lean ====
section
/-! DEFINITION. The state of the block as plain data (`spec/10_state.md`), the inputs that reach it from the host,
the reset line and the transport, the reasons a step stops, and the state after reset (rule R39). -/

namespace Sys2Proof.Machine

/-- A control line that carries a level (rule R34). The SPI backend has CS_N alone. -/
inductive Line where
  /-- CS_N, chip-select, active low. -/
  | csN
  /-- WR_N, write clock. -/
  | wrN
  /-- RD_N, read clock. -/
  | rdN
  /-- DATA, serial data. -/
  | data
  deriving DecidableEq, Repr

/-- The direction that DATA_DIR sets (rule R34). -/
inductive Dir where
  /-- DATA is an input of the block. -/
  | input
  /-- DATA is an output of the block. -/
  | out
  deriving DecidableEq, Repr

/-- An event of the output trace (rule R34). -/
inductive Event where
  /-- `Pin(P, v)` for a line that carries a level. -/
  | pin (line : Line) (level : Bool)
  /-- `Pin(DATA_DIR, v)`. -/
  | dir (d : Dir)
  /-- `SpiByte(b)`, one byte handed to the SPI transport. -/
  | spiByte (b : Byte)
  deriving DecidableEq, Repr

/-- The levels of the control lines (rule R34). In the SPI backend only `csN` is a line of the block, and the other
four keep their reset values. -/
structure Lines where
  /-- CS_N, active low. -/
  csN : Bool
  /-- WR_N. -/
  wrN : Bool
  /-- RD_N. -/
  rdN : Bool
  /-- DATA. -/
  data : Bool
  /-- DATA_DIR. -/
  dataDir : Dir
  deriving DecidableEq, Repr

/-- The line levels after reset (rule R39). -/
def Lines.atReset : Lines :=
  { csN := true, wrN := true, rdN := true, data := false, dataDir := .input }

/-- STATUS.FAULT (rule R31). Codes 6 to 15 are reserved and never written, so no constructor has one. -/
inductive FaultCode where
  /-- Code 0, no fault. -/
  | none
  /-- Code 1, F_ILLEGAL_OP (rule R223). -/
  | illegalOp
  /-- Code 2, F_NOT_INIT (rule R224). -/
  | notInit
  /-- Code 3, F_BUSY (rule R225). -/
  | busy
  /-- Code 4, F_GLYPH_INDEX (rule R226). -/
  | glyphIndex
  /-- Code 5, F_TEXT_LEN (rule R227). -/
  | textLen
  deriving DecidableEq, Repr

/-- The physical framebuffer of the configured backend. The other backend's array does not exist (rule R26). -/
inductive Framebuffer where
  /-- FBW[0..11], twelve u16 row words (rule R27). -/
  | gpio (fbw : Vector Word 12)
  /-- FBB[0..23], twenty-four u8 bytes (rule R28). -/
  | spi (fbb : Vector Byte 24)
  deriving DecidableEq, Repr

/-- The text buffer TXT (rule R24) as its cells that do not hold 0, with strictly rising indices: an unlisted cell
holds 0, its reset value (rule R39). -/
abbrev TextBuffer := List (Nat × CodePoint)

/-- A register the host can name (rules R22, R38). -/
inductive HostReg where
  /-- OPR. -/
  | opr
  /-- ARG_A. -/
  | argA
  /-- ARG_B. -/
  | argB
  /-- ARG_V. -/
  | argV
  /-- ARG_C. -/
  | argC
  /-- TXT[i]. -/
  | txt (i : Nat)
  /-- TXT_LEN. -/
  | txtLen
  /-- RES_FLAG. -/
  | resFlag
  /-- RES_VAL. -/
  | resVal
  /-- STATUS. -/
  | status
  deriving DecidableEq, Repr

/-- A host write, at the width of the register written (rules R23 to R25, R30, R38). -/
inductive HostWrite where
  /-- OPR, u8: the write that starts a request (rule R23). -/
  | opr (v : Byte)
  /-- ARG_A, s16. -/
  | argA (v : Word)
  /-- ARG_B, s16. -/
  | argB (v : Word)
  /-- ARG_V, u1. -/
  | argV (v : Bool)
  /-- ARG_C, u21. -/
  | argC (v : CodePoint)
  /-- TXT[i], u21. -/
  | txt (i : Nat) (v : CodePoint)
  /-- TXT_LEN, u16. -/
  | txtLen (v : Word)
  /-- RES_FLAG, u1, which ignores the write (rule R38). -/
  | resFlag (v : Bool)
  /-- RES_VAL, u32, which ignores the write (rule R38). -/
  | resVal (v : BitVec 32)
  /-- STATUS, u8, which ignores the write (rule R38). -/
  | status (v : Byte)
  deriving DecidableEq, Repr

/-- How far the request in flight gets before the next input lands: the draw with no law of rule R36. Every output
event that the transport accepts takes one unit, and so does the end of the request (BUSY <- 0), so that an input can
land between the two (rule R225). That last unit is the model's own, log entry 6: no rule makes a request wait for the
transport when it has no event left. -/
inductive Pace where
  /-- Every event is accepted at once and every request runs to its end. -/
  | free
  /-- `n` units are left, and then the encoder waits with BUSY = 1. -/
  | units (n : Nat)
  deriving DecidableEq, Repr

/-- What reaches the block from outside (rules R20, R23, R38, R36, R250). -/
inductive Input where
  /-- The host writes a register. -/
  | write (w : HostWrite)
  /-- The host reads a register. -/
  | read (r : HostReg)
  /-- The reset input is asserted (rule R250). -/
  | reset
  /-- The transport's next draw (rule R36). -/
  | pace (p : Pace)
  deriving DecidableEq, Repr

/-- What the request in flight still does after its last output event, before BUSY <- 0. -/
inductive Closing where
  /-- Nothing. -/
  | nothing
  /-- INIT's last steps: FbZero and STATUS.READY <- 1 (rule R170). -/
  | zeroAndReady
  deriving DecidableEq, Repr

/-- The whole state of the block. -/
structure State where
  /-- The configuration (rule R7). No step changes it. -/
  cfg : Config
  /-- OPR, u8 (rule R23). -/
  opr : Byte
  /-- ARG_A, s16 (rule R24). -/
  argA : Word
  /-- ARG_B, s16 (rule R24). -/
  argB : Word
  /-- ARG_V, u1 (rule R24). -/
  argV : Bool
  /-- ARG_C, u21 (rule R24). -/
  argC : CodePoint
  /-- TXT[0..TEXT_MAX-1], u21 each (rule R24). -/
  txt : TextBuffer
  /-- TXT_LEN, u16 (rule R24). -/
  txtLen : Word
  /-- RES_FLAG, u1 (rule R25). -/
  resFlag : Bool
  /-- RES_VAL, u32 (rule R25). -/
  resVal : BitVec 32
  /-- STATUS.BUSY (rule R30). -/
  busy : Bool
  /-- STATUS.READY (rule R30). -/
  ready : Bool
  /-- STATUS.FAULT (rules R30, R31). -/
  fault : FaultCode
  /-- FBW or FBB (rules R26 to R28). -/
  fb : Framebuffer
  /-- The control lines (rule R34). -/
  lines : Lines
  /-- The output trace, first event first (rule R34). -/
  trace : List Event
  /-- The events the request in flight has yet to send: what is left of the frame shift register SR and its
  counter BITCNT (rule R29) and of the frames after it. -/
  pending : List Event
  /-- What the request in flight does after its last event. -/
  closing : Closing
  /-- Transport readiness (rule R36), the environment's draw. -/
  pace : Pace
  /-- What the environment does next, first input first. The MODEL's own field. -/
  inputs : List Input
  /-- How many times the reset input was asserted: the argument of the unspecified values. The MODEL's own
  field. -/
  resets : Nat
  /-- How long the trace was when the last reset ended: the chip may have any value there (item U21), so its state is
  computed from the later events only. The MODEL's own field, log entry 24. -/
  resetMark : Nat
  deriving DecidableEq, Repr

/-- Why a step stops with a fault. -/
inductive Fault where
  /-- Raised by a host access to TXT[i] with i ≥ TEXT_MAX, a register that does not exist (rule R22: the registers
  are exactly TXT[0..TEXT_MAX-1]). Safe: no host can make such an access. -/
  | noTextCell (i : Nat)
  deriving DecidableEq, Repr

/-- Why a step has no meaning. -/
inductive Refusal where
  /-- Raised by an arm of `exec` whose instruction has no meaning yet. No arm raises it in this model. Safe. -/
  | notModelled (mnemonic : String)
  /-- Raised by `configure` for a configuration that is not well formed, which is "refused at configuration time and
  never met at run time" (rule R8). Safe. -/
  | illFormedConfig
  deriving DecidableEq, Repr

/-- The state right after the first reset of a block with framebuffer `fb` and configuration `cfg` (rule R39). -/
def State.atReset (cfg : Config) (fb : Framebuffer) : State :=
  { cfg := cfg, opr := 0, argA := 0, argB := 0, argV := false, argC := 0, txt := [], txtLen := 0,
    resFlag := false, resVal := 0, busy := false, ready := false, fault := .none, fb := fb,
    lines := Lines.atReset, trace := [], pending := [], closing := .nothing, pace := .free, inputs := [],
    resets := 0, resetMark := 0 }

/-- The machine right after reset (rule R39): the GPIO backend in the standard configuration. DESIGN CHOICE, log
entries 1 (backend), 2 (font), 3 (framebuffer all 0, which the spec leaves unspecified) and 6 (pace). -/
def State.reset : State :=
  State.atReset Config.standard (.gpio (Vector.replicate 12 0))

end Sys2Proof.Machine
end

