-- ==== Sys2Proof/Syntax.lean ====
section
/-! DEFINITION. The requests of the block, one constructor for each row of `spec/opcode_table.json`
(rules R90 and R92 of `spec/30_encoding.md`). A request carries no operand field: every row's operands are in
registers (rule R93), so no constructor takes an argument. -/

namespace Sys2Proof

/-- The 23 requests a host can issue through OPR (rules R90, R92). -/
inductive Instr where
  /-- INIT, the initialization sequence (rule R170). -/
  | init
  /-- SET, set or clear one pixel (rule R130). -/
  | set
  /-- GET, read one pixel (rule R131). -/
  | get
  /-- FILL, set every pixel (rule R132). -/
  | fill
  /-- FLUSH, write the framebuffer to the chip (rule R166). -/
  | flush
  /-- BRIGHT, set the PWM duty (rule R150). -/
  | bright
  /-- CMD.SYS_DIS (rule R151). -/
  | cmdSysDis
  /-- CMD.SYS_EN (rule R152). -/
  | cmdSysEn
  /-- CMD.LED_OFF (rule R153). -/
  | cmdLedOff
  /-- CMD.LED_ON (rule R154). -/
  | cmdLedOn
  /-- CMD.BLINK_OFF (rule R155). -/
  | cmdBlinkOff
  /-- CMD.BLINK_ON (rule R156). -/
  | cmdBlinkOn
  /-- CMD.CLK_SLAVE (rule R157). -/
  | cmdClkSlave
  /-- CMD.CLK_RC (rule R158). -/
  | cmdClkRc
  /-- CMD.CLK_EXT (rule R159). -/
  | cmdClkExt
  /-- CMD.COM_N8 (rule R160). -/
  | cmdComN8
  /-- CMD.COM_N16 (rule R161). -/
  | cmdComN16
  /-- CMD.COM_P8 (rule R162). -/
  | cmdComP8
  /-- CMD.COM_P16 (rule R163). -/
  | cmdComP16
  /-- FIND, look up a glyph by code (rule R200). -/
  | find
  /-- DRAWG, draw one glyph by index (rule R201). -/
  | drawg
  /-- TEXT, draw a string (rule R202). -/
  | text
  /-- WIDTH, measure a string (rule R203). -/
  | width
  deriving DecidableEq, Repr

end Sys2Proof
end

