-- ==== Sys2Proof/Decode.lean ====
section
/-! DEFINITION. Decoding and encoding of the request byte OPR = op and sel (rules R90 to R92, R105 of
`spec/30_encoding.md`). -/

namespace Sys2Proof

/-- Why an OPR value is reserved (rule R105). -/
inductive Reserved where
  /-- op 0x0, or op in 0xC to 0xF. -/
  | reservedOp
  /-- op 0x7 with sel in 0xD to 0xF. -/
  | reservedSelector
  /-- An op other than 0x7 with sel not 0. -/
  | selectorNotZero
  deriving DecidableEq, Repr

/-- A legal request or the reason its byte is reserved. -/
inductive Decoded where
  /-- A legal request value (rule R91). -/
  | request (i : Instr)
  /-- A reserved value (rule R105). -/
  | reserved (r : Reserved)
  deriving DecidableEq, Repr

/-- `OPR[7:4]`, the operation code (rule R23). -/
def opField (b : Byte) : BitVec 4 := b.extractLsb' 4 4

/-- `OPR[3:0]`, the selector (rule R23). -/
def selField (b : Byte) : BitVec 4 := b.extractLsb' 0 4

/-- The CMD selectors (rule R92). -/
def decodeSelector (sel : BitVec 4) : Decoded :=
  match sel.toNat with
  | 0x0 => .request .cmdSysDis
  | 0x1 => .request .cmdSysEn
  | 0x2 => .request .cmdLedOff
  | 0x3 => .request .cmdLedOn
  | 0x4 => .request .cmdBlinkOff
  | 0x5 => .request .cmdBlinkOn
  | 0x6 => .request .cmdClkSlave
  | 0x7 => .request .cmdClkRc
  | 0x8 => .request .cmdClkExt
  | 0x9 => .request .cmdComN8
  | 0xA => .request .cmdComN16
  | 0xB => .request .cmdComP8
  | 0xC => .request .cmdComP16
  | _ => .reserved .reservedSelector

/-- A request whose op is not CMD: its sel must be 0 (rule R91). -/
def decodePlain (i : Instr) (sel : BitVec 4) : Decoded :=
  if sel = 0 then .request i else .reserved .selectorNotZero

/-- The request an OPR value stands for (rules R90, R91, R105). -/
def decode (b : Byte) : Decoded :=
  match (opField b).toNat with
  | 0x1 => decodePlain .init (selField b)
  | 0x2 => decodePlain .set (selField b)
  | 0x3 => decodePlain .get (selField b)
  | 0x4 => decodePlain .fill (selField b)
  | 0x5 => decodePlain .flush (selField b)
  | 0x6 => decodePlain .bright (selField b)
  | 0x7 => decodeSelector (selField b)
  | 0x8 => decodePlain .find (selField b)
  | 0x9 => decodePlain .drawg (selField b)
  | 0xA => decodePlain .text (selField b)
  | 0xB => decodePlain .width (selField b)
  | _ => .reserved .reservedOp

/-- The operation code of a request (rule R90). -/
def encodeOp : Instr → BitVec 4
  | .init => 0x1
  | .set => 0x2
  | .get => 0x3
  | .fill => 0x4
  | .flush => 0x5
  | .bright => 0x6
  | .cmdSysDis | .cmdSysEn | .cmdLedOff | .cmdLedOn | .cmdBlinkOff | .cmdBlinkOn | .cmdClkSlave | .cmdClkRc
  | .cmdClkExt | .cmdComN8 | .cmdComN16 | .cmdComP8 | .cmdComP16 => 0x7
  | .find => 0x8
  | .drawg => 0x9
  | .text => 0xA
  | .width => 0xB

/-- The selector of a request: rule R92 for CMD, 0 for every other op (rule R91). -/
def encodeSel : Instr → BitVec 4
  | .init | .set | .get | .fill | .flush | .bright | .find | .drawg | .text | .width => 0x0
  | .cmdSysDis => 0x0
  | .cmdSysEn => 0x1
  | .cmdLedOff => 0x2
  | .cmdLedOn => 0x3
  | .cmdBlinkOff => 0x4
  | .cmdBlinkOn => 0x5
  | .cmdClkSlave => 0x6
  | .cmdClkRc => 0x7
  | .cmdClkExt => 0x8
  | .cmdComN8 => 0x9
  | .cmdComN16 => 0xA
  | .cmdComP8 => 0xB
  | .cmdComP16 => 0xC

/-- The OPR byte of a request, op in bits 7 to 4 and sel in bits 3 to 0 (rule R90). -/
def encode (i : Instr) : Byte := encodeOp i ++ encodeSel i

/-- The request that the decoder reads from a row of `spec/opcode_table.json` whose `nbits` bits are `w`. A request
is one byte, so the bits above `nbits` are 0 and none lies above bit 7. -/
def decodeTableWord (nbits w : Nat) : Option Instr :=
  match decode (BitVec.ofNat 8 (w % 2 ^ nbits)) with
  | .request i => some i
  | .reserved _ => none

end Sys2Proof
end

