-- ==== Sys2Proof/Machine/Layout.lean ====
section
/-! DEFINITION. The physical layouts of the framebuffer, the layout converter, and the framebuffer primitives FbGet,
FbSet, FbFill and FbZero (rules R26 to R28, R120 to R129). -/

namespace Sys2Proof.Machine

/-- Bit i of w becomes v, and no other bit changes. -/
def setBit {n : Nat} (w : BitVec n) (i : Nat) (v : Bool) : BitVec n :=
  if v then w ||| BitVec.twoPow n i else w &&& ~~~(BitVec.twoPow n i)

/-- The bit position of byte offset `off` in the byte-nibble layout (rule R125). -/
def bitpos (off : Nat) : Nat := 4 * (off / 4) + 3 - off % 4

/-- The pixel index `y*16 + x` of the byte-nibble layout (rule R125). -/
def pixelIndex (x y : Nat) : Nat := y * Config.rowStride + x

/-- Row word FBW[y] (rule R27). -/
def rowWord (fbw : Vector Word 12) (y : Nat) : Word := fbw[y]?.getD 0

/-- Byte FBB[i] (rule R28). -/
def fbByte (fbb : Vector Byte 24) (i : Nat) : Byte := fbb[i]?.getD 0

/-- The logical pixel P(x, y), read from the physical framebuffer (rule R26), for 0 ≤ x, y < 12. -/
def Framebuffer.pixel (fb : Framebuffer) (x y : Nat) : Bool :=
  match fb with
  | .gpio fbw => (rowWord fbw y).getLsbD (15 - x)
  | .spi fbb => (fbByte fbb (pixelIndex x y / 8)).getLsbD (bitpos (pixelIndex x y % 8))

/-- P(x, y) <- v for 0 ≤ x, y < 12: one bit of one word or byte (rules R69, R120). -/
def Framebuffer.setPixel (fb : Framebuffer) (x y : Nat) (v : Bool) : Framebuffer :=
  match fb with
  | .gpio fbw => .gpio (fbw.setIfInBounds y (setBit (rowWord fbw y) (15 - x) v))
  | .spi fbb =>
    .spi (fbb.setIfInBounds (pixelIndex x y / 8)
      (setBit (fbByte fbb (pixelIndex x y / 8)) (bitpos (pixelIndex x y % 8)) v))

/-- `inb(x, y)`: both coordinates are in [0, 12), compared as signed values in both backends (rule R122). -/
def inb (x y : Int) : Bool :=
  decide (0 ≤ x) && decide (x < 12) && decide (0 ≤ y) && decide (y < 12)

/-- `FbGet(x, y)` (rule R121). -/
def fbGet (fb : Framebuffer) (x y : Int) : Bool :=
  if inb x y then fb.pixel x.toNat y.toNat else false

/-- `FbSet(x, y, v)` (rule R120). -/
def fbSet (fb : Framebuffer) (x y : Int) (v : Bool) : Framebuffer :=
  if inb x y then fb.setPixel x.toNat y.toNat v else fb

/-- `FbFill(v)` (rule R123). -/
def fbFill (fb : Framebuffer) (v : Bool) : Framebuffer :=
  match fb with
  | .gpio _ => .gpio (Vector.replicate 12 (if v then 0xFFF0 else 0x0000))
  | .spi _ =>
    .spi ⟨((List.range 24).map fun i =>
      if v then (if i % 2 = 0 then (0xFF : Byte) else 0x0F) else 0x00).toArray, by simp⟩

/-- `FbZero()`: every word or byte, padding included, becomes 0 (rule R129). -/
def fbZero (fb : Framebuffer) : Framebuffer :=
  match fb with
  | .gpio _ => .gpio (Vector.replicate 12 0)
  | .spi _ => .spi (Vector.replicate 24 0)

/-- The framebuffer of a reset: every word or byte is unspecified (rules R39, R250), a free value. -/
def fbUnspecified (fb : Framebuffer) (resets : Nat) : Framebuffer :=
  match fb with
  | .gpio _ => .gpio ⟨((List.range 12).map (Config.freeRowWord resets)).toArray, by simp⟩
  | .spi _ => .spi ⟨((List.range 24).map (Config.freeFbByte resets)).toArray, by simp⟩

/-- BACKEND (rule R7), which is the backend whose physical framebuffer exists (rule R26). -/
def Framebuffer.backend : Framebuffer → Backend
  | .gpio _ => .gpio
  | .spi _ => .spi

/-- BACKEND of the block. -/
def State.backend (s : State) : Backend := s.fb.backend

/-- The padding bits, those of columns 12 to 15, are all 0 (rules R27, R28, R61). -/
def Framebuffer.paddingZero (fb : Framebuffer) : Bool :=
  match fb with
  | .gpio fbw => (List.range 12).all fun y => (rowWord fbw y).extractLsb' 0 4 == 0
  | .spi fbb => (List.range 12).all fun y => (fbByte fbb (2 * y + 1)).extractLsb' 4 4 == 0

/-- `encG(P)` (rule R124). -/
def encG (p : Nat → Nat → Bool) : Vector Word 12 :=
  ⟨((List.range 12).map fun y =>
    (List.range 12).foldl (fun (w : Word) x => w ||| ((bit16 (p x y)) <<< (15 - x))) 0).toArray, by simp⟩
where
  /-- A pixel as a u16. -/
  bit16 (v : Bool) : Word := if v then 1 else 0

/-- `decG(W)` (rule R124). -/
def decG (fbw : Vector Word 12) (x y : Nat) : Bool := (Framebuffer.gpio fbw).pixel x y

/-- `encS(P)` (rule R125): byte b is the OR over the pixels that lie in it. -/
def encS (p : Nat → Nat → Bool) : Vector Byte 24 :=
  ⟨((List.range 24).map fun b =>
    (List.range 12).foldl (fun (acc : Byte) y =>
      (List.range 12).foldl (fun (w : Byte) x =>
        if pixelIndex x y / 8 = b then w ||| ((bit8 (p x y)) <<< bitpos (pixelIndex x y % 8)) else w) acc) 0).toArray,
    by simp⟩
where
  /-- A pixel as a u8. -/
  bit8 (v : Bool) : Byte := if v then 1 else 0

/-- `decS(B)` (rule R125). -/
def decS (fbb : Vector Byte 24) (x y : Nat) : Bool := (Framebuffer.spi fbb).pixel x y

end Sys2Proof.Machine
end

