-- ==== Sys2Proof/Machine/Flags.lean ====
section
/-! DEFINITION. STATUS and the result flag (rules R30 to R32). The block has no condition codes and no arithmetic
flags (rule R32). -/

namespace Sys2Proof.Machine

/-- The code that STATUS.FAULT holds (rule R31). -/
def FaultCode.code : FaultCode → BitVec 4
  | .none => 0
  | .illegalOp => 1
  | .notInit => 2
  | .busy => 3
  | .glyphIndex => 4
  | .textLen => 5

/-- A u1 register as a bit. -/
def bit (v : Bool) : BitVec 1 := BitVec.ofBool v

/-- The STATUS register as the host reads it: FAULT in bits 7 to 4, bits 3 and 2 reserved and 0, READY in bit 1,
BUSY in bit 0 (rule R30). -/
def State.statusWord (s : State) : Byte :=
  s.fault.code ++ (0 : BitVec 2) ++ bit s.ready ++ bit s.busy

end Sys2Proof.Machine
end

