-- ==== Sys2Proof/Machine/Operands.lean ====
section
/-! DEFINITION. The operands of the requests (rules R93, R94), the text buffer's cells (rule R24), and what the host
reads from a register (rule R38). -/

namespace Sys2Proof.Machine

/-- TXT[i]: an unlisted cell holds 0 (rule R39). -/
def TextBuffer.read : TextBuffer → Nat → CodePoint
  | [], _ => 0
  | (j, v) :: rest, i => if i = j then v else TextBuffer.read rest i

/-- TXT[i] <- v, in the canonical form: rising indices, and no cell that holds 0 is listed. -/
def TextBuffer.write (i : Nat) (v : CodePoint) : TextBuffer → TextBuffer
  | [] => if v = 0 then [] else [(i, v)]
  | (j, w) :: rest =>
    if i < j then (if v = 0 then (j, w) :: rest else (i, v) :: (j, w) :: rest)
    else if i = j then (if v = 0 then rest else (i, v) :: rest)
    else (j, w) :: TextBuffer.write i v rest

/-- The indices rise strictly from `lo` on, stay below `cap`, and no listed cell holds 0. -/
def TextBuffer.wfFrom (lo cap : Nat) : TextBuffer → Bool
  | [] => true
  | (j, v) :: rest => decide (lo ≤ j) && decide (j < cap) && decide (v ≠ 0) && TextBuffer.wfFrom (j + 1) cap rest

/-- The text buffer's canonical form, for a capacity of `cap` = TEXT_MAX cells. -/
def TextBuffer.wf (cap : Nat) (t : TextBuffer) : Bool := TextBuffer.wfFrom 0 cap t

/-- x, x0 or the brightness value: `sext_32(ARG_A)`, as the integer it stands for (rule R94). -/
def State.operandA (s : State) : Int := s.argA.toInt

/-- y or y0: `sext_32(ARG_B)`, as the integer it stands for (rule R94). -/
def State.operandB (s : State) : Int := s.argB.toInt

/-- The glyph index ARG_C, unsigned (rules R94, R201). -/
def State.operandIndex (s : State) : Nat := s.argC.toNat

/-- `TXT[0..TXT_LEN-1]` (rules R94, R196). -/
def State.operandText (s : State) : List CodePoint :=
  (List.range s.txtLen.toNat).map (TextBuffer.read s.txt)

/-- `clamp(v, lo, hi)` (rule R10). -/
def clamp (v lo hi : Int) : Int := if v < lo then lo else if hi < v then hi else v

/-- What the host reads from a register (rules R23 to R25, R30, R38), zero-extended to one width of 32 bits, which is a
DESIGN CHOICE, log entry 16. -/
def State.hostRead (s : State) : HostReg → BitVec 32
  | .opr => s.opr.zeroExtend 32
  | .argA => s.argA.zeroExtend 32
  | .argB => s.argB.zeroExtend 32
  | .argV => (bit s.argV).zeroExtend 32
  | .argC => s.argC.zeroExtend 32
  | .txt i => (TextBuffer.read s.txt i).zeroExtend 32
  | .txtLen => s.txtLen.zeroExtend 32
  | .resFlag => (bit s.resFlag).zeroExtend 32
  | .resVal => s.resVal
  | .status => s.statusWord.zeroExtend 32

end Sys2Proof.Machine
end

