-- ==== Sys2Proof/WellFormed.lean ====
section
/-! DEFINITION. Which requests and which configurations are well formed (rules R8 and R93). -/

namespace Sys2Proof

/-- A request has no operand field (every row of `spec/opcode_table.json` has an empty list of fields), so each
constructor stands for one legal OPR byte and there is nothing to check. The illegal OPR bytes are those that
`decode` rejects by name. -/
def Instr.wf : Instr → Bool
  | .init => true
  | .set => true
  | .get => true
  | .fill => true
  | .flush => true
  | .bright => true
  | .cmdSysDis => true
  | .cmdSysEn => true
  | .cmdLedOff => true
  | .cmdLedOn => true
  | .cmdBlinkOff => true
  | .cmdBlinkOn => true
  | .cmdClkSlave => true
  | .cmdClkRc => true
  | .cmdClkExt => true
  | .cmdComN8 => true
  | .cmdComN16 => true
  | .cmdComP8 => true
  | .cmdComP16 => true
  | .find => true
  | .drawg => true
  | .text => true
  | .width => true

/-- FONT's codes are strictly ascending (rules R8, R33). -/
def Config.fontAscending : List Glyph → Bool
  | [] => true
  | [_] => true
  | g :: h :: rest => decide (g.code < h.code) && Config.fontAscending (h :: rest)

/-- Every FONT record has exactly 16 bitmap bytes (rule R8). -/
def Config.fontRecordsWhole (font : List Glyph) : Bool :=
  font.all fun g => g.bytes.length == Config.glyphBytes

/-- The configuration is well formed (rule R8). BACKEND needs no check: its type has the two legal values only. -/
def Config.wf (c : Config) : Bool :=
  (c.comMode == 0x24 || c.comMode == 0x2C)
    && Config.fontAscending c.font
    && Config.fontRecordsWhole c.font
    && decide (1 ≤ c.textMax) && decide (c.textMax ≤ 65535)
    && (c.spiMode == 0 || c.spiMode == 3)

end Sys2Proof
end

