-- ==== Sys2Proof/Machine/Ops.lean ====
section
/-! DEFINITION. The shared operations: handing events to the transport (rules R12, R34, R36, R146), raising a fault
(rule R222), reset as the one way out of a fault (rules R232, R250), request acceptance (rule R221), and the host's
access to the other registers (rule R38). -/

namespace Sys2Proof.Machine

/-- The level that an event leaves on its line (rule R34). -/
def Lines.after (l : Lines) : Event → Lines
  | .pin .csN v => { l with csN := v }
  | .pin .wrN v => { l with wrN := v }
  | .pin .rdN v => { l with rdN := v }
  | .pin .data v => { l with data := v }
  | .dir d => { l with dataDir := d }
  | .spiByte _ => l

/-- The transport accepts the events `es`, in order (rules R34, R146). -/
def State.emit (s : State) (es : List Event) : State :=
  { s with trace := s.trace ++ es, lines := es.foldl Lines.after s.lines }

/-- The request in flight ends: its last steps, then BUSY <- 0 (rules R30, R170). -/
def State.finish (s : State) : State :=
  match s.closing with
  | .nothing => { s with pending := [], busy := false }
  | .zeroAndReady =>
    { s with pending := [], closing := .nothing, fb := fbZero s.fb, ready := true, busy := false }

/-- The encoder goes on with the request in flight for as long as the transport and the pace let it. With `n` units
left it sends at most `n` events, and it ends the request only if a unit is left after the last one. Otherwise it
waits with BUSY = 1 (rules R36, R37, R146, R228). -/
def State.proceed (s : State) : State :=
  if s.busy then
    match s.pace with
    | .free => (s.emit s.pending).finish
    | .units n =>
      if s.pending.length < n then
        { (s.emit s.pending).finish with pace := .units (n - (s.pending.length + 1)) }
      else
        { s.emit (s.pending.take n) with pending := s.pending.drop n, pace := .units 0 }
  else s

/-- No input comes. An encoder with no event left has nothing to wait for and ends its request (rules R21, R30); one
with events left waits for the transport, with no timeout (rule R228). Log entry 6. -/
def State.elapse (s : State) : State := if s.busy && s.pending.isEmpty then s.finish else s

/-- A request starts: BUSY <- 1, and its events are to be sent (rules R21, R30, R221 check 7). -/
def State.launch (events : List Event) (closing : Closing) (s : State) : State :=
  { s with busy := true, pending := events, closing := closing }.proceed

/-- `raise Fault(code)`: STATUS.FAULT <- code and nothing else changes (rule R222). This is the block's whole fault
entry: there is no saved state, no mode and no transfer of control (rule R231). -/
def raiseFault (code : FaultCode) (s : State) : State := { s with fault := code }

/-- The pin events of the lines that a reset changes, each with its line's number (rule R250). -/
def resetChanges (l : Lines) : List (Nat × Event) :=
  (if l.csN = Lines.atReset.csN then [] else [(0, .pin .csN Lines.atReset.csN)])
    ++ (if l.wrN = Lines.atReset.wrN then [] else [(1, .pin .wrN Lines.atReset.wrN)])
    ++ (if l.rdN = Lines.atReset.rdN then [] else [(2, .pin .rdN Lines.atReset.rdN)])
    ++ (if l.data = Lines.atReset.data then [] else [(3, .pin .data Lines.atReset.data)])
    ++ (if l.dataDir = Lines.atReset.dataDir then [] else [(4, .dir Lines.atReset.dataDir)])

/-- Puts one numbered event before the first whose rank is not lower. -/
def insertByRank (rank : Nat → Nat) (e : Nat × Event) : List (Nat × Event) → List (Nat × Event)
  | [] => [e]
  | f :: rest => if rank e.1 ≤ rank f.1 then e :: f :: rest else f :: insertByRank rank e rest

/-- Numbered events in the order of their ranks. -/
def sortByRank (rank : Nat → Nat) : List (Nat × Event) → List (Nat × Event)
  | [] => []
  | e :: rest => insertByRank rank e (sortByRank rank rest)

/-- The pin events that the n-th reset appends, in an order the spec leaves open (rule R250). -/
def resetEvents (n : Nat) (l : Lines) : List Event :=
  (sortByRank (Config.freeResetRank n) (resetChanges l)).map Prod.snd

/-- Asserting the reset input (rule R250): the request in flight is abandoned, every register, status field and line
takes its value of rule R39, the trace of the earlier run stays and the pin events of the changed lines are
appended. It is the only thing that clears STATUS.FAULT (rule R232). The configuration and what the environment
does next are not the block's to reset. The trace is marked where the reset ends, because from there on the chip may
have any value (rule R251, item U21). -/
def applyReset (s : State) : State :=
  { s with
    opr := 0, argA := 0, argB := 0, argV := false, argC := 0, txt := [], txtLen := 0,
    resFlag := false, resVal := 0, busy := false, ready := false, fault := .none,
    fb := fbUnspecified s.fb s.resets, lines := Lines.atReset,
    trace := s.trace ++ resetEvents s.resets s.lines,
    pending := [], closing := .nothing, resets := s.resets + 1,
    resetMark := s.trace.length + (resetEvents s.resets s.lines).length }

/-- Checks 1 and 2 of rule R221, which every write to a host-writable register goes through: a faulted block ignores
the write, and a busy one raises F_BUSY and discards it (rule R225). `accept` is what happens when neither
applies. -/
def hostWritable (accept : State → State) (s : State) : State :=
  if s.fault ≠ .none then s
  else if s.busy then raiseFault .busy s
  else accept s

/-- A write of a reserved value to OPR: check 3 of rule R221. OPR holds the value written (rule R222). -/
def rejectReserved (v : Byte) (s : State) : State :=
  hostWritable (fun s => raiseFault .illegalOp { s with opr := v }) s

/-- The write of request i's byte to OPR (rule R221): checks 1 and 2, then check 4 where `needsReady`, then check 5
or 6 as `bad` says, then the request's rule `run`. OPR holds the value written from check 3 on (rule R222). -/
def acceptRequest (i : Instr) (needsReady : Bool) (bad : State → FaultCode) (run : State → State) (s : State) :
    Host.Outcome State Fault Refusal :=
  .next (hostWritable (fun s =>
    let t := { s with opr := encode i }
    if needsReady && !t.ready then raiseFault .notInit t
    else if bad t ≠ .none then raiseFault (bad t) t
    else run t) s)

/-- The request has neither check 5 nor check 6. -/
def noCheck (_ : State) : FaultCode := .none

/-- Check 5 of rule R221: DRAWG with ARG_C ≥ N_GLYPHS (rule R226). -/
def glyphIndexCheck (s : State) : FaultCode :=
  if s.cfg.nGlyphs ≤ s.operandIndex then .glyphIndex else .none

/-- Check 6 of rule R221: TEXT or WIDTH with TXT_LEN > TEXT_MAX (rule R227). -/
def textLenCheck (s : State) : FaultCode :=
  if s.cfg.textMax < s.txtLen.toNat then .textLen else .none

/-- A host write to a register other than OPR (rules R38, R221, R225). RES_FLAG, RES_VAL and STATUS ignore it. -/
def writeRegister (w : HostWrite) (s : State) : Host.Outcome State Fault Refusal :=
  match w with
  | .opr _ => .next s
  | .argA v => .next (hostWritable (fun s => { s with argA := v }) s)
  | .argB v => .next (hostWritable (fun s => { s with argB := v }) s)
  | .argV v => .next (hostWritable (fun s => { s with argV := v }) s)
  | .argC v => .next (hostWritable (fun s => { s with argC := v }) s)
  | .txt i v =>
    if i < s.cfg.textMax then .next (hostWritable (fun s => { s with txt := TextBuffer.write i v s.txt }) s)
    else .fault (.noTextCell i)
  | .txtLen v => .next (hostWritable (fun s => { s with txtLen := v }) s)
  | .resFlag _ => .next s
  | .resVal _ => .next s
  | .status _ => .next s

/-- A host read of a register of rule R38 changes nothing, and its value is `State.hostRead`. DESIGN CHOICE, log entry 16:
no rule gives a host read an effect. -/
def readRegister (r : HostReg) (s : State) : Host.Outcome State Fault Refusal :=
  match r with
  | .txt i => if i < s.cfg.textMax then .next s else .fault (.noTextCell i)
  | _ => .next s

/-- The environment's new draw (rule R36): a waiting encoder goes on with it. -/
def setPace (p : Pace) (s : State) : State := { s with pace := p }.proceed

/-- A block is configured and reset (rules R8, R252): a configuration that is not well formed is refused here, so it
is never met at run time. -/
def configure (cfg : Config) (fb : Framebuffer) : Host.Outcome State Fault Refusal :=
  if cfg.wf then .next (State.atReset cfg fb) else .refused .illFormedConfig

end Sys2Proof.Machine
end

