-- ==== Sys2Proof/Machine/Framebuffer.lean ====
section
/-! DEFINITION. The framebuffer family: SET, GET, FILL (rules R130 to R132). -/

namespace Sys2Proof.Machine

/-- SET (rule R130): `FbSet(x, y, v)`. -/
def execSet (s : State) : Host.Outcome State Fault Refusal :=
  acceptRequest .set true noCheck
    (fun s => State.launch [] .nothing { s with fb := fbSet s.fb s.operandA s.operandB s.argV }) s

/-- GET (rule R131): `RES_FLAG <- FbGet(x, y)`. -/
def execGet (s : State) : Host.Outcome State Fault Refusal :=
  acceptRequest .get true noCheck
    (fun s => State.launch [] .nothing { s with resFlag := fbGet s.fb s.operandA s.operandB }) s

/-- FILL (rule R132): `FbFill(v)`. -/
def execFill (s : State) : Host.Outcome State Fault Refusal :=
  acceptRequest .fill true noCheck
    (fun s => State.launch [] .nothing { s with fb := fbFill s.fb s.argV }) s

end Sys2Proof.Machine
end

