-- ==== Sys2Proof/Machine/Font.lean ====
section
/-! DEFINITION. The glyph ROM's records, the binary-search lookup, the rasterizer with its axis swap, and the text
traversal (rules R190 to R196). -/

namespace Sys2Proof.Machine

/-- `RomCode(g)`, read for g < N_GLYPHS only (rules R33, R62). -/
def romCode (font : List Glyph) (g : Nat) : BitVec 16 :=
  match font[g]? with
  | some r => r.code
  | none => 0

/-- `RomByte(g, j)`, read for g < N_GLYPHS and j < 16 only (rules R33, R62). -/
def romByte (font : List Glyph) (g j : Nat) : Byte :=
  match font[g]? with
  | some r => r.bytes.getD j 0
  | none => 0

/-- `pix(g, gx, gy)`, the bitmap bit test (rule R191). -/
def glyphPix (font : List Glyph) (g gx gy : Nat) : Bool :=
  (romByte font g ((gy * Config.glyphSize + gx) / 8)).getLsbD (7 - (gy * Config.glyphSize + gx) % 8)

/-- `adv(g)`, the low 4 bits of byte 15 (rule R192). -/
def glyphAdvance (font : List Glyph) (g : Nat) : Nat :=
  (romByte font g (Config.glyphBytes - 1) &&& 0x0F).toNat

/-- The loop of the binary search over the half-open bounds [lo, hi) (rule R194). `fuel` bounds the number of
rounds, and a round always narrows the bounds. -/
def searchLoop (font : List Glyph) (c : CodePoint) : Nat → Nat → Nat → Option Nat
  | 0, _, _ => none
  | fuel + 1, lo, hi =>
    if lo < hi then
      let mid := (lo + hi) / 2
      let k : CodePoint := (romCode font mid).zeroExtend 21
      if k = c then some mid
      else if k < c then searchLoop font c fuel (mid + 1) hi
      else searchLoop font c fuel lo mid
    else none

/-- `find(c)`: the index of the record whose code is c, if there is one, compared at 21 bits (rules R193, R194).
`none` stands for the pair (0, 0). -/
def find (font : List Glyph) (c : CodePoint) : Option Nat :=
  searchLoop font c font.length 0 font.length

/-- The 121 glyph coordinates (gx, gy) in the order of rule R195: gy outer, gx inner. -/
def glyphCells : List (Nat × Nat) :=
  (List.range Config.glyphSize).flatMap fun gy => (List.range Config.glyphSize).map fun gx => (gx, gy)

/-- `DrawGlyph(x0, y0, g)`: lit pixels only, with the axes swapped (rule R195). -/
def drawGlyph (font : List Glyph) (x0 y0 : Int) (g : Nat) (fb : Framebuffer) : Framebuffer :=
  glyphCells.foldl (fun acc c =>
    if glyphPix font g c.1 c.2 then fbSet acc (y0 + c.2) (x0 + c.1) true else acc) fb

/-- What TextWalk carries: the cursor CX, the width accumulator WACC and the framebuffer (rules R29, R196). CX and
WACC are kept as exact integers, since neither can overflow (rule R29). DEDUCED, log entry 9. -/
structure Walk where
  /-- CX, the s32 cursor. -/
  cx : Int
  /-- WACC, the u32 width. -/
  w : Nat
  /-- The framebuffer drawn into. -/
  fb : Framebuffer
  deriving DecidableEq, Repr

/-- One code point of TextWalk (rule R196). -/
def walkStep (font : List Glyph) (y0 : Int) (draw : Bool) (k : Walk) (c : CodePoint) : Walk :=
  match find font c with
  | some g =>
    { cx := k.cx + glyphAdvance font g, w := k.w + glyphAdvance font g,
      fb := if draw then drawGlyph font k.cx y0 g k.fb else k.fb }
  | none => { cx := k.cx + Config.fallbackAdv, w := k.w + Config.fallbackAdv, fb := k.fb }

/-- `TextWalk(x0, y0, text, draw)` over the framebuffer `fb` (rule R196). -/
def textWalk (font : List Glyph) (x0 y0 : Int) (text : List CodePoint) (draw : Bool) (fb : Framebuffer) : Walk :=
  text.foldl (walkStep font y0 draw) { cx := x0, w := 0, fb := fb }

end Sys2Proof.Machine
end

