-- ==== Sys2Proof/Machine/Glyph.lean ====
section
/-! DEFINITION. The glyph family: FIND, DRAWG, TEXT, WIDTH (rules R200 to R203). -/

namespace Sys2Proof.Machine

/-- FIND (rule R200): `(RES_FLAG, idx) <- find(c); RES_VAL <- zext_32(idx)`. -/
def execFind (s : State) : Host.Outcome State Fault Refusal :=
  acceptRequest .find true noCheck
    (fun s => State.launch [] .nothing
      { s with
        resFlag := (find s.cfg.font s.argC).isSome
        resVal := BitVec.ofNat 32 ((find s.cfg.font s.argC).getD 0) }) s

/-- DRAWG (rule R201): `DrawGlyph(x0, y0, g)`, after check 5 of rule R221. -/
def execDrawg (s : State) : Host.Outcome State Fault Refusal :=
  acceptRequest .drawg true glyphIndexCheck
    (fun s => State.launch [] .nothing
      { s with fb := drawGlyph s.cfg.font s.operandA s.operandB s.operandIndex s.fb }) s

/-- TEXT (rule R202): `TextWalk(x0, y0, text, 1)`, after check 6 of rule R221. -/
def execText (s : State) : Host.Outcome State Fault Refusal :=
  acceptRequest .text true textLenCheck
    (fun s => State.launch [] .nothing
      { s with fb := (textWalk s.cfg.font s.operandA s.operandB s.operandText true s.fb).fb }) s

/-- WIDTH (rule R203): `RES_VAL <- TextWalk(0, 0, text, 0)`, after check 6 of rule R221. -/
def execWidth (s : State) : Host.Outcome State Fault Refusal :=
  acceptRequest .width true textLenCheck
    (fun s => State.launch [] .nothing
      { s with resVal := BitVec.ofNat 32 (textWalk s.cfg.font 0 0 s.operandText false s.fb).w }) s

end Sys2Proof.Machine
end

