-- ==== Sys2Proof/Machine/Frames.lean ====
section
/-! DEFINITION. The frame primitives and the frame formats (rules R67, R95 to R104, R140 to R145, R164, R165,
R171). Each gives the ordered output events of what it sends. -/

namespace Sys2Proof.Machine

/-- The bits of a value in transmit order, most significant bit first (rule R67). -/
def bitsMsbFirst {n : Nat} (w : BitVec n) : List Bool := (List.range n).map fun i => w.getMsbD i

/-- The three pin events of one bit: clock, data, unclock (rule R140). -/
def gpioBit (b : Bool) : List Event := [.pin .wrN false, .pin .data b, .pin .wrN true]

/-- `gpio_frame(bits)` (rule R140). -/
def gpioFrame (bits : List Bool) : List Event :=
  [.dir .out, .pin .csN false] ++ bits.flatMap gpioBit ++ [.pin .csN true]

/-- `spi_txn(w)` (rule R142), high byte first. -/
def spiTxn (w : Word) : List Event :=
  [.pin .csN false, .spiByte (w.extractLsb' 8 8), .spiByte (w.extractLsb' 0 8), .pin .csN true]

/-- Format G-CMD, `0x800 | (C << 1)` (rules R95, R143). -/
def gCmd (c : Byte) : BitVec 12 := 0x800 ||| (c.zeroExtend 12 <<< 1)

/-- Format S-CMD, `0x8000 | (C << 5)` (rules R97, R143). -/
def sCmd (c : Byte) : Word := 0x8000 ||| (c.zeroExtend 16 <<< 5)

/-- Format S-DATA, `0xA000 | (A << 6) | (nib << 2)` (rules R98, R144). -/
def sData (a : BitVec 7) (nib : BitVec 4) : Word :=
  0xA000 ||| (a.zeroExtend 16 <<< 6) ||| (nib.zeroExtend 16 <<< 2)

/-- The header of format G-WR: write ID 101, then the 7-bit base address 0x00, A6 first (rules R96, R164). -/
def gWrHeader : List Bool := [true, false, true] ++ List.replicate 7 false

/-- `send_cmd(C)` (rule R143). -/
def sendCmd (b : Backend) (c : Byte) : List Event :=
  match b with
  | .gpio => gpioFrame (bitsMsbFirst (gCmd c))
  | .spi => spiTxn (sCmd c)

/-- `send_nib(a, nib)`, the SPI backend only (rule R144). -/
def sendNib (a : Nat) (nib : BitVec 4) : List Event := spiTxn (sData (BitVec.ofNat 7 a) nib)

/-- `nib(a)`, the SPI nibble for chip address a (rules R103, R165). -/
def fbNibble (fbb : Vector Byte 24) (a : Nat) : BitVec 4 :=
  (fbByte fbb (a / 2) >>> (4 * (a % 2))).extractLsb' 0 4

/-- The frames of FLUSH: one G-WR frame of the 12 row words (rules R104, R164), or 48 S-DATA transactions in
ascending address order (rule R165, `spec/90_conflicts.md` C1). -/
def flushEvents (fb : Framebuffer) : List Event :=
  match fb with
  | .gpio fbw => gpioFrame (gWrHeader ++ fbw.toList.flatMap bitsMsbFirst)
  | .spi fbb => (List.range Config.flushNibbles).flatMap fun a => sendNib a (fbNibble fbb a)

/-- `ClearDisplay()`: zero to chip addresses 0x00 to 0x5F (rule R171). -/
def clearDisplayEvents (b : Backend) : List Event :=
  match b with
  | .gpio => gpioFrame (gWrHeader ++ List.replicate (4 * Config.ramNibbles) false)
  | .spi => (List.range Config.ramNibbles).flatMap fun a => sendNib a 0

/-- The PWM command byte, `0xA0 | clamp(v, 0, 15)` (rule R101). -/
def pwmByte (v : Int) : Byte := 0xA0 ||| BitVec.ofInt 8 (clamp v 0 15)

/-- The command bytes of INIT, in its fixed order (rules R102, R170). -/
def initCommands (cfg : Config) : List Byte := [0x00, cfg.comMode, 0x18, 0x01, 0xAF, 0x08, 0x03]

/-- The frames of INIT: seven commands, then the clear-display (rules R170, R172). -/
def initEvents (b : Backend) (cfg : Config) : List Event :=
  (initCommands cfg).flatMap (sendCmd b) ++ clearDisplayEvents b

end Sys2Proof.Machine
end

