-- ==== Sys2Proof/Machine/Protocol.lean ====
section
/-! DEFINITION. The protocol family: INIT, FLUSH, BRIGHT and the thirteen CMD requests (rules R148 to R173). -/

namespace Sys2Proof.Machine

/-- INIT (rules R170 to R173): the seven commands, the clear-display, and at its end FbZero and READY <- 1. It is the
one request that check 4 of rule R221 lets through while READY = 0. -/
def execInit (s : State) : Host.Outcome State Fault Refusal :=
  acceptRequest .init false noCheck
    (fun s => State.launch (initEvents s.backend s.cfg) .zeroAndReady s) s

/-- FLUSH (rule R166): the whole framebuffer goes to the chip, and the framebuffer stays as it was. -/
def execFlush (s : State) : Host.Outcome State Fault Refusal :=
  acceptRequest .flush true noCheck (fun s => State.launch (flushEvents s.fb) .nothing s) s

/-- BRIGHT (rule R150): `send_cmd(0xA0 | clamp(v, 0, 15))`. -/
def execBright (s : State) : Host.Outcome State Fault Refusal :=
  acceptRequest .bright true noCheck
    (fun s => State.launch (sendCmd s.backend (pwmByte s.operandA)) .nothing s) s

/-- The template of the CMD requests (rule R148): `send_cmd(C)` and nothing else. -/
def commandRequest (i : Instr) (c : Byte) (s : State) : Host.Outcome State Fault Refusal :=
  acceptRequest i true noCheck (fun s => State.launch (sendCmd s.backend c) .nothing s) s

/-- CMD.SYS_DIS (rule R151): `send_cmd(0x00)`. -/
def execCmdSysDis (s : State) : Host.Outcome State Fault Refusal := commandRequest .cmdSysDis 0x00 s

/-- CMD.SYS_EN (rule R152): `send_cmd(0x01)`. -/
def execCmdSysEn (s : State) : Host.Outcome State Fault Refusal := commandRequest .cmdSysEn 0x01 s

/-- CMD.LED_OFF (rule R153): `send_cmd(0x02)`. -/
def execCmdLedOff (s : State) : Host.Outcome State Fault Refusal := commandRequest .cmdLedOff 0x02 s

/-- CMD.LED_ON (rule R154): `send_cmd(0x03)`. -/
def execCmdLedOn (s : State) : Host.Outcome State Fault Refusal := commandRequest .cmdLedOn 0x03 s

/-- CMD.BLINK_OFF (rule R155): `send_cmd(0x08)`. -/
def execCmdBlinkOff (s : State) : Host.Outcome State Fault Refusal := commandRequest .cmdBlinkOff 0x08 s

/-- CMD.BLINK_ON (rule R156): `send_cmd(0x09)`. -/
def execCmdBlinkOn (s : State) : Host.Outcome State Fault Refusal := commandRequest .cmdBlinkOn 0x09 s

/-- CMD.CLK_SLAVE (rule R157): `send_cmd(0x10)`. -/
def execCmdClkSlave (s : State) : Host.Outcome State Fault Refusal := commandRequest .cmdClkSlave 0x10 s

/-- CMD.CLK_RC (rule R158): `send_cmd(0x18)`. -/
def execCmdClkRc (s : State) : Host.Outcome State Fault Refusal := commandRequest .cmdClkRc 0x18 s

/-- CMD.CLK_EXT (rule R159): `send_cmd(0x1C)`. -/
def execCmdClkExt (s : State) : Host.Outcome State Fault Refusal := commandRequest .cmdClkExt 0x1C s

/-- CMD.COM_N8 (rule R160): `send_cmd(0x20)`. -/
def execCmdComN8 (s : State) : Host.Outcome State Fault Refusal := commandRequest .cmdComN8 0x20 s

/-- CMD.COM_N16 (rule R161): `send_cmd(0x24)`. -/
def execCmdComN16 (s : State) : Host.Outcome State Fault Refusal := commandRequest .cmdComN16 0x24 s

/-- CMD.COM_P8 (rule R162): `send_cmd(0x28)`. -/
def execCmdComP8 (s : State) : Host.Outcome State Fault Refusal := commandRequest .cmdComP8 0x28 s

/-- CMD.COM_P16 (rule R163): `send_cmd(0x2C)`. -/
def execCmdComP16 (s : State) : Host.Outcome State Fault Refusal := commandRequest .cmdComP16 0x2C s

end Sys2Proof.Machine
end

