-- ==== Sys2Proof/Machine/Dispatch.lean ====
section
/-! DEFINITION. The meaning of every request, one arm per constructor. -/

namespace Sys2Proof.Machine

def exec (i : Instr) (s : State) : Host.Outcome State Fault Refusal :=
  match i with
  | .init => Sys2Proof.Machine.execInit s
  | .set => Sys2Proof.Machine.execSet s
  | .get => Sys2Proof.Machine.execGet s
  | .fill => Sys2Proof.Machine.execFill s
  | .flush => Sys2Proof.Machine.execFlush s
  | .bright => Sys2Proof.Machine.execBright s
  | .cmdSysDis => Sys2Proof.Machine.execCmdSysDis s
  | .cmdSysEn => Sys2Proof.Machine.execCmdSysEn s
  | .cmdLedOff => Sys2Proof.Machine.execCmdLedOff s
  | .cmdLedOn => Sys2Proof.Machine.execCmdLedOn s
  | .cmdBlinkOff => Sys2Proof.Machine.execCmdBlinkOff s
  | .cmdBlinkOn => Sys2Proof.Machine.execCmdBlinkOn s
  | .cmdClkSlave => Sys2Proof.Machine.execCmdClkSlave s
  | .cmdClkRc => Sys2Proof.Machine.execCmdClkRc s
  | .cmdClkExt => Sys2Proof.Machine.execCmdClkExt s
  | .cmdComN8 => Sys2Proof.Machine.execCmdComN8 s
  | .cmdComN16 => Sys2Proof.Machine.execCmdComN16 s
  | .cmdComP8 => Sys2Proof.Machine.execCmdComP8 s
  | .cmdComP16 => Sys2Proof.Machine.execCmdComP16 s
  | .find => Sys2Proof.Machine.execFind s
  | .drawg => Sys2Proof.Machine.execDrawg s
  | .text => Sys2Proof.Machine.execText s
  | .width => Sys2Proof.Machine.execWidth s

end Sys2Proof.Machine
end

