-- ==== Sys2Proof/Machine/HostPort.lean ====
section
/-! DEFINITION. What each input does to the block (rules R20, R23, R38, R221, R250), and how the next one is taken. -/

namespace Sys2Proof.Machine

/-- The host writes OPR (rules R23, R221): a legal value is a request, a reserved one is rejected. -/
def writeOpr (v : Byte) (s : State) : Host.Outcome State Fault Refusal :=
  match decode v with
  | .request i => exec i s
  | .reserved _ => .next (rejectReserved v s)

/-- One input reaches the block. -/
def deliver (x : Input) (s : State) : Host.Outcome State Fault Refusal :=
  match x with
  | .write (.opr v) => writeOpr v s
  | .write w => writeRegister w s
  | .read r => readRegister r s
  | .reset => .next (applyReset s)
  | .pace p => .next (setPace p s)

/-- The next input and the state it reaches: inputs land one at a time, in the order the environment gives them
(rule R77). -/
def nextInput (s : State) : Option (Input × State) :=
  match s.inputs with
  | [] => none
  | x :: rest => some (x, { s with inputs := rest })

/-- The host is about to write the byte `v` to OPR, before anything else it does. -/
def withRequestByte (v : Byte) (s : State) : State := { s with inputs := .write (.opr v) :: s.inputs }

end Sys2Proof.Machine
end

