-- ==== Sys2Proof/Machine/Step.lean ====
section
/-! DEFINITION. One step of the block: it takes the next input, or goes on without one. -/

namespace Sys2Proof.Machine

/-- One step (rules R20, R21, R23). The block runs no program: it reacts to the host's register accesses, to reset
and to the transport. With no input left an idle block stays as it is, and so does an encoder that waits for the
transport with events left (rules R78, R228); a request with no event left ends. -/
def step (s : State) : Host.Outcome State Fault Refusal :=
  match nextInput s with
  | none => .next s.elapse
  | some (x, t) => deliver x t

/-- `s` where the host writes the request byte `w` next: a request starts on a write to OPR and on no other event
(rule R23), so this is where the block takes its next instruction from. Log entry 7. -/
def State.withFetchWord (s : State) (nbits w : Nat) : State :=
  withRequestByte (BitVec.ofNat 8 (w % 2 ^ nbits)) s

end Sys2Proof.Machine
end

