-- ==== Sys2Proof/Machine/Assembly.lean ====
section
/-! DEFINITION. Request programs and the binding's functions: the lines of rule R109, the host writes that encode
them, the pseudo-requests of rule R110 and the binding map of rule R108. -/

namespace Sys2Proof.Machine

/-- One line of a request program (rule R109). -/
inductive AsmLine where
  /-- `INIT`. -/
  | init
  /-- `FLUSH`. -/
  | flush
  /-- `CMD.<name>`, by its selector of rule R92. -/
  | cmd (sel : Fin 13)
  /-- `SET x, y, v`. -/
  | set (x y : Word) (v : Bool)
  /-- `GET x, y`. -/
  | get (x y : Word)
  /-- `FILL v`. -/
  | fill (v : Bool)
  /-- `BRIGHT v`. -/
  | bright (v : Word)
  /-- `FIND c`. -/
  | find (c : CodePoint)
  /-- `DRAWG x0, y0, g`. -/
  | drawg (x0 y0 : Word) (g : CodePoint)
  /-- `TEXT x0, y0, [c0, c1, ...]`. -/
  | text (x0 y0 : Word) (codes : List CodePoint)
  /-- `WIDTH [c0, ...]`. -/
  | width (codes : List CodePoint)
  deriving DecidableEq, Repr

/-- The OPR byte that ends a line (rules R90, R92, R109). -/
def AsmLine.oprByte : AsmLine → Byte
  | .init => encode .init
  | .flush => encode .flush
  | .cmd sel => (0x7 : BitVec 4) ++ BitVec.ofNat 4 sel.val
  | .set _ _ _ => encode .set
  | .get _ _ => encode .get
  | .fill _ => encode .fill
  | .bright _ => encode .bright
  | .find _ => encode .find
  | .drawg _ _ _ => encode .drawg
  | .text _ _ _ => encode .text
  | .width _ => encode .width

/-- The writes of a text: TXT[0] to TXT[n-1] from index `i` on, then TXT_LEN (rule R109). -/
def textWrites (codes : List CodePoint) : List HostWrite :=
  (List.range codes.length).map (fun i => HostWrite.txt i (codes.getD i 0)) ++ [.txtLen (BitVec.ofNat 16 codes.length)]

/-- The operand register writes of a line, in the order ARG_A, ARG_B, ARG_V, ARG_C, TXT, TXT_LEN (rule R109). -/
def AsmLine.operandWrites : AsmLine → List HostWrite
  | .init => []
  | .flush => []
  | .cmd _ => []
  | .set x y v => [.argA x, .argB y, .argV v]
  | .get x y => [.argA x, .argB y]
  | .fill v => [.argV v]
  | .bright v => [.argA v]
  | .find c => [.argC c]
  | .drawg x0 y0 g => [.argA x0, .argB y0, .argC g]
  | .text x0 y0 codes => [.argA x0, .argB y0] ++ textWrites codes
  | .width codes => textWrites codes

/-- The host writes that encode a line: its operand writes, then one write of its OPR byte (rule R109). -/
def AsmLine.writes (l : AsmLine) : List HostWrite := l.operandWrites ++ [.opr l.oprByte]

/-- The line that request i and the operand registers stand for: the inverse of a line's writes (rules R92, R93,
R109). -/
def State.lineOf (i : Instr) (s : State) : AsmLine :=
  match i with
  | .init => .init
  | .set => .set s.argA s.argB s.argV
  | .get => .get s.argA s.argB
  | .fill => .fill s.argV
  | .flush => .flush
  | .bright => .bright s.argA
  | .cmdSysDis => .cmd 0
  | .cmdSysEn => .cmd 1
  | .cmdLedOff => .cmd 2
  | .cmdLedOn => .cmd 3
  | .cmdBlinkOff => .cmd 4
  | .cmdBlinkOn => .cmd 5
  | .cmdClkSlave => .cmd 6
  | .cmdClkRc => .cmd 7
  | .cmdClkExt => .cmd 8
  | .cmdComN8 => .cmd 9
  | .cmdComN16 => .cmd 10
  | .cmdComP8 => .cmd 11
  | .cmdComP16 => .cmd 12
  | .find => .find s.argC
  | .drawg => .drawg s.argA s.argB s.argC
  | .text => .text s.argA s.argB s.operandText
  | .width => .width s.operandText

/-- The text of a line fits a text buffer of `cap` cells (rules R7, R227). -/
def AsmLine.Fits (cap : Nat) : AsmLine → Prop
  | .text _ _ codes => codes.length ≤ cap
  | .width codes => codes.length ≤ cap
  | .init | .flush | .cmd _ | .set _ _ _ | .get _ _ | .fill _ | .bright _ | .find _ | .drawg _ _ _ => True

/-- `CLEAR` is `FILL 0` (rule R110, `spec/90_conflicts.md` C7). -/
def pseudoClear : AsmLine := .fill false

/-- `WRITE` is `FLUSH` (rule R110). -/
def pseudoWrite : AsmLine := .flush

/-- `BRIGHT_MAX` is `BRIGHT 15` (rule R110). -/
def pseudoBrightMax : AsmLine := .bright 15

/-- `DRAWCHAR x0, y0, c`, its first line (rule R110). -/
def pseudoDrawcharFind (c : CodePoint) : AsmLine := .find c

/-- `DRAWCHAR x0, y0, c`, its second line, which the host issues from the results it reads, and only if RES_FLAG = 1
(rule R110). -/
def pseudoDrawcharDraw (x0 y0 : Word) (resFlag : Bool) (resVal : BitVec 32) : Option AsmLine :=
  if resFlag then some (.drawg x0 y0 (resVal.truncate 21)) else none

/-- A function of the binding layer with its arguments already narrowed (rule R108). -/
inductive BindingCall where
  /-- Driver initialization. -/
  | driverInit
  /-- `set_pixel(x,y,value)`. -/
  | setPixel (x y : Word) (value : Bool)
  /-- `get_pixel(x,y)->bool`. -/
  | getPixel (x y : Word)
  /-- `write()`. -/
  | write
  /-- `fill(value)`. -/
  | fill (value : Bool)
  /-- `clear()`. -/
  | clear
  /-- `brightness(0..15)`. -/
  | brightness (value : Word)
  /-- `text(x,y,string)`. -/
  | text (x y : Word) (codes : List CodePoint)
  /-- `text_width(string)->int`. -/
  | textWidth (codes : List CodePoint)
  deriving DecidableEq, Repr

/-- The line that a binding function maps onto (rule R108). -/
def BindingCall.line : BindingCall → AsmLine
  | .driverInit => .init
  | .setPixel x y v => .set x y v
  | .getPixel x y => .get x y
  | .write => pseudoWrite
  | .fill v => .fill v
  | .clear => pseudoClear
  | .brightness v => .bright v
  | .text x y codes => .text x y codes
  | .textWidth codes => .width codes

/-- The host issues a line: its writes are what the environment does next, in order (rules R77, R109). -/
def State.issue (s : State) (l : AsmLine) : State := { s with inputs := s.inputs ++ l.writes.map .write }

end Sys2Proof.Machine
end

