-- ==== Sys2Proof/Machine/Chip.lean ====
section
/-! DEFINITION. What the output trace says to the chip: the latched bit streams (rules R35, R141), the reference
receiver (rule R66) that computes the chip's state from them (rule R36), and the check of the pin order
(rules R145, R254, R255). None of it is state of the block. -/

namespace Sys2Proof.Machine

/-- What a watcher of the lines knows: the levels that decide what is latched, the bits latched since CS_N fell, and
the frames closed so far (rule R141). -/
structure Latch where
  /-- CS_N. -/
  csN : Bool
  /-- WR_N. -/
  wrN : Bool
  /-- DATA. -/
  data : Bool
  /-- The bits latched in the frame that is being sent. -/
  current : List Bool
  /-- The latched bit stream of every closed frame, first frame first. -/
  frames : List (List Bool)
  deriving DecidableEq, Repr

/-- Before any event: the levels of rule R39 and no frame. -/
def Latch.atReset : Latch :=
  { csN := Lines.atReset.csN, wrN := Lines.atReset.wrN, data := Lines.atReset.data, current := [], frames := [] }

/-- The bits of a byte in the order the SPI transport clocks them, bit 7 first (rules R67, R141). -/
def byteBits (b : Byte) : List Bool := (List.range 8).map fun i => b.getLsbD (7 - i)

/-- One event: a bit is latched where WR_N rises while CS_N = 0, a byte's bits are latched where it is sent while
CS_N = 0, and a frame runs from a fall of CS_N to its next rise (rule R141). -/
def Latch.after (l : Latch) : Event → Latch
  | .pin .csN v =>
    if l.csN && !v then { l with csN := v, current := [] }
    else if !l.csN && v then { l with csN := v, current := [], frames := l.frames ++ [l.current] }
    else l
  | .pin .wrN v =>
    if !l.csN && !l.wrN && v then { l with wrN := v, current := l.current ++ [l.data] } else { l with wrN := v }
  | .pin .data v => { l with data := v }
  | .pin .rdN _ => l
  | .dir _ => l
  | .spiByte b => if l.csN then l else { l with current := l.current ++ byteBits b }

/-- The latched bit streams of the frames that a trace closes (rules R35, R141). -/
def latchedFrames (trace : List Event) : List (List Bool) := (trace.foldl Latch.after Latch.atReset).frames

/-- The chip as the reference receiver knows it (rule R66): the bit D(d) of display RAM address a where it is known,
and the command bytes applied since its mode was last any value, first one first. -/
structure Chip where
  /-- RAM[a][d]; `none` is a bit that may have any value. -/
  ram : Nat → Nat → Option Bool
  /-- The commands applied. -/
  commands : List Byte

/-- The chip before any frame: every RAM bit is unknown (rule R66). -/
def Chip.unknown : Chip := { ram := fun _ _ => none, commands := [] }

/-- One nibble, D0 first (rules R64, R66). -/
def setNibble (ram : Nat → Nat → Option Bool) (a : Nat) (nib : Nat → Bool) : Nat → Nat → Option Bool :=
  fun b d => if b = a ∧ d < 4 then some (nib d) else ram b d

/-- The complete nibbles of a write frame go to successive addresses from `a` on, and the bits of an incomplete one are
ignored (rule R66). -/
def writeNibbles (ram : Nat → Nat → Option Bool) (a : Nat) : List Bool → (Nat → Nat → Option Bool)
  | d0 :: d1 :: d2 :: d3 :: rest =>
    writeNibbles (setNibble ram (a % 128) fun d => [d0, d1, d2, d3].getD d false) (a + 1) rest
  | _ => ram

/-- The complete 9-bit groups of a command frame, each giving its command byte c7 to c0 (rule R66). -/
def commandGroups : List Bool → List Byte
  | c7 :: c6 :: c5 :: c4 :: c3 :: c2 :: c1 :: c0 :: _ :: rest =>
    BitVec.ofBoolListBE [c7, c6, c5, c4, c3, c2, c1, c0] :: commandGroups rest
  | _ => []

/-- The number that a list of bits stands for, first bit most significant. -/
def bitsToNat (bits : List Bool) : Nat := bits.foldl (fun n b => 2 * n + b.toNat) 0

/-- The reference receiver reads one frame's bits (rule R66). -/
def Chip.receive (c : Chip) (bits : List Bool) : Chip :=
  if bits.take 3 = [true, false, true] ∧ 10 ≤ bits.length then
    { c with ram := writeNibbles c.ram (bitsToNat ((bits.drop 3).take 7)) (bits.drop 10) }
  else if bits.take 3 = [true, false, false] then
    { c with commands := c.commands ++ commandGroups (bits.drop 3) }
  else c

/-- The chip that receives frames one after another. -/
def Chip.receiveAll (c : Chip) (frames : List (List Bool)) : Chip := frames.foldl Chip.receive c

/-- The chip that a watcher of the lines computes: it has received every closed frame, and of a frame still open the
bits latched so far, so its RAM changes nibble by nibble while the frame is clocked in (rules R73, R260). -/
def Latch.chip (l : Latch) : Chip :=
  if l.csN then Chip.unknown.receiveAll l.frames else (Chip.unknown.receiveAll l.frames).receive l.current

/-- The events since the last reset ended. -/
def State.sinceReset (s : State) : List Event := s.trace.drop s.resetMark

/-- The chip's state at this point of the run (rules R36, R66). A reset of the block sends no frame to the chip, but the
spec leaves the chip's RAM and mode any value after it, whether the chip kept its state, was reset too, or had a frame
cut short, until the next INIT writes it (rule R251, items U21 and U22). So nothing the chip received before the last
reset counts. The reference receiver is PRESUMED, log entry 17; what a reset leaves is log entry 24. -/
def State.chip (s : State) : Chip := (s.sinceReset.foldl Latch.after Latch.atReset).chip

/-- Where a frame stands, for the check of the pin order (rules R140, R142, R254, R255). -/
inductive Phase where
  /-- CS_N = 1, between frames. -/
  | idle
  /-- GPIO: DATA_DIR was driven, and CS_N is about to fall. -/
  | dirDriven
  /-- GPIO: inside a frame, between two bits. -/
  | betweenBits
  /-- GPIO: WR_N fell, and DATA is about to be set. -/
  | clockLow
  /-- GPIO: DATA was set, and WR_N is about to rise. -/
  | dataSet
  /-- SPI: CS_N fell, and the high byte is about to be sent. -/
  | highByte
  /-- SPI: the low byte is about to be sent. -/
  | lowByte
  /-- SPI: CS_N is about to rise. -/
  | bothSent
  deriving DecidableEq, Repr

/-- The phase after an event, or `none` where the order of rules R140, R142, R254 and R255 does not allow it there. -/
def Phase.next (b : Backend) (p : Phase) (e : Event) : Option Phase :=
  match b with
  | .gpio =>
    match p, e with
    | .idle, .dir .out => some .dirDriven
    | .dirDriven, .pin .csN false => some .betweenBits
    | .betweenBits, .pin .wrN false => some .clockLow
    | .clockLow, .pin .data _ => some .dataSet
    | .dataSet, .pin .wrN true => some .betweenBits
    | .betweenBits, .pin .csN true => some .idle
    | _, _ => none
  | .spi =>
    match p, e with
    | .idle, .pin .csN false => some .highByte
    | .highByte, .spiByte _ => some .lowByte
    | .lowByte, .spiByte _ => some .bothSent
    | .bothSent, .pin .csN true => some .idle
    | _, _ => none

/-- The phase after a list of events, or `none` where one of them breaks the order. -/
def Phase.run (b : Backend) (p : Phase) : List Event → Option Phase
  | [] => some p
  | e :: rest =>
    match p.next b e with
    | some q => Phase.run b q rest
    | none => none

end Sys2Proof.Machine
end

