-- ==== Sys2Proof/Safety.lean ====
section
/-! DEFINITION. The terms claims are stated in: when the block takes a request, when the pace lets it end, and the
invariants of the block. -/

namespace Sys2Proof.Machine

/-- No fault is recorded and the encoder is idle: checks 1 and 2 of rule R221 do not apply. -/
def State.Open (s : State) : Prop := s.fault = .none ∧ s.busy = false

/-- The block takes any legal request: checks 1, 2 and 4 of rule R221 do not apply. -/
def State.Accepting (s : State) : Prop := s.fault = .none ∧ s.busy = false ∧ s.ready = true

/-- The pace lets `k` units pass before the next input lands (rule R36). -/
def Pace.Covers (p : Pace) (k : Nat) : Prop :=
  match p with
  | .free => True
  | .units n => k ≤ n

/-- The pace after `k` units. -/
def Pace.spend (p : Pace) (k : Nat) : Pace :=
  match p with
  | .free => .free
  | .units n => .units (n - k)

/-- Two framebuffers show the same logical grid P (rule R26). -/
def SameGrid (a b : Framebuffer) : Prop := ∀ x y : Nat, x < 12 → y < 12 → a.pixel x y = b.pixel x y

/-- The level of CS_N in a phase of a frame. -/
def Phase.csN : Phase → Bool
  | .idle | .dirDriven => true
  | .betweenBits | .clockLow | .dataSet | .highByte | .lowByte | .bothSent => false

/-- The level of WR_N in a phase of a frame. -/
def Phase.wrN : Phase → Bool
  | .clockLow | .dataSet => false
  | .idle | .dirDriven | .betweenBits | .highByte | .lowByte | .bothSent => true

/-- `s` after request i has ended with the events `es` sent and nothing else changed: OPR holds the request's byte
(rule R23), the events stand at the end of the trace and the lines are where they left them (rule R34), nothing is
left to send, and the pace has given one unit for each event and one for the end. -/
def State.afterRequest (s : State) (i : Instr) (es : List Event) : State :=
  { s with
    opr := encode i, trace := s.trace ++ es, lines := es.foldl Lines.after s.lines,
    pending := [], closing := .nothing, pace := s.pace.spend (es.length + 1) }

/-- The command byte C that each CMD request sends (rules R92, R99). -/
def commandTable : List (Instr × Byte) :=
  [(.cmdSysDis, 0x00), (.cmdSysEn, 0x01), (.cmdLedOff, 0x02), (.cmdLedOn, 0x03), (.cmdBlinkOff, 0x08),
   (.cmdBlinkOn, 0x09), (.cmdClkSlave, 0x10), (.cmdClkRc, 0x18), (.cmdClkExt, 0x1C), (.cmdComN8, 0x20),
   (.cmdComN16, 0x24), (.cmdComP8, 0x28), (.cmdComP16, 0x2C)]

/-- The requests that send no frame (rules R74, R133). -/
def silentRequests : List Instr := [.set, .get, .fill, .find, .drawg, .text, .width]

/-- The request byte is reserved (rule R105), with op the byte's high half and sel its low half (rule R90). -/
def ReservedByte (b : Byte) : Prop :=
  b.toNat / 16 = 0 ∨ 0xC ≤ b.toNat / 16 ∨ (b.toNat / 16 = 7 ∧ 0xD ≤ b.toNat % 16) ∨
    (b.toNat / 16 ≠ 7 ∧ b.toNat % 16 ≠ 0)

/-- The write is to a host-writable register that exists, in a block with `cap` = TEXT_MAX text cells (rules R22,
R38). -/
def HostWrite.Writable (cap : Nat) : HostWrite → Prop
  | .opr _ | .argA _ | .argB _ | .argV _ | .argC _ | .txtLen _ => True
  | .txt i _ => i < cap
  | .resFlag _ | .resVal _ | .status _ => False

/-- The input asks for no output: a register access, or a request that sends no frame. -/
def Input.Silent : Input → Prop
  | .write (.opr v) => ∃ i ∈ silentRequests, v = encode i
  | .write _ | .read _ => True
  | .reset | .pace _ => False

/-- The input is neither the transport's next draw nor a reset: nothing that lifts a wait (rule R228). -/
def Input.LiftsNoWait : Input → Prop
  | .write _ | .read _ => True
  | .reset | .pace _ => False

/-- A GPIO block and an SPI block that agree on every register and on the logical grid, both idle and unhindered
(rule R128). -/
structure LogicallySame (a b : State) : Prop where
  /-- The first block is of the GPIO backend. -/
  gpio : a.backend = .gpio
  /-- The second block is of the SPI backend. -/
  spi : b.backend = .spi
  /-- The logical grids are equal (rule R26). -/
  grid : SameGrid a.fb b.fb
  /-- Every register, field and input is equal but for the framebuffer, the lines and the trace. -/
  rest : b = { a with fb := b.fb, lines := b.lines, trace := b.trace }
  /-- The encoders are idle. -/
  idle : a.busy = false
  /-- Nothing holds them up. -/
  unhindered : a.pace = .free

/-- The advance of a code point in a text: the low 4 bits of byte 15 of the record found (rule R192), else 11 (rule
R196). -/
def advanceOf (font : List Glyph) (c : CodePoint) : Nat :=
  match find font c with
  | some g => (romByte font g 15).toNat % 16
  | none => 11

/-- How far the first `k` code points of TXT move the cursor (rule R196). -/
def advanceBefore (s : State) (k : Nat) : Nat :=
  ((List.range k).map fun j => advanceOf s.cfg.font (TextBuffer.read s.txt j)).sum

/-- Glyph g drawn at (x0, y0) lights framebuffer pixel (x, y): some lit glyph pixel (gx, gy) goes there under the axis
swap, and it is not clipped (rules R191, R195). -/
def GlyphLights (font : List Glyph) (g : Nat) (x0 y0 : Int) (x y : Nat) : Prop :=
  x < 12 ∧ y < 12 ∧ ∃ gx gy : Nat, gx < 11 ∧ gy < 11 ∧ (x : Int) = y0 + gy ∧ (y : Int) = x0 + gx ∧
    (romByte font g ((gy * 11 + gx) / 8)).getLsbD (7 - (gy * 11 + gx) % 8) = true

/-- What the registers and arrays keep: the configuration is well formed (rule R8), the text buffer is canonical, and
once INIT has completed the padding of the framebuffer is 0 (rules R27, R28, R61). -/
structure State.StorageInv (s : State) : Prop where
  /-- Rule R8. -/
  config : s.cfg.wf = true
  /-- The canonical form of TXT. -/
  text : TextBuffer.wf s.cfg.textMax s.txt = true
  /-- Rules R27 and R28. -/
  padding : s.ready = true → s.fb.paddingZero = true

/-- What the outputs keep: every line has the level that the last event of the trace for it gave, and the same counted
from the last reset (rules R34, R250), RD_N is 1 (rule R100), the events still to be sent go on from where the open
frame stands and close every frame in the order of rules R254 and R255, and an idle encoder has nothing left to do and
has CS_N at 1 (rules R37, R255). -/
structure State.OutputInv (s : State) : Prop where
  /-- Rule R34. -/
  levels : s.lines = s.trace.foldl Lines.after Lines.atReset
  /-- The mark of the last reset stands inside the trace (rule R250). -/
  mark : s.resetMark ≤ s.trace.length
  /-- Rules R34 and R250: a reset leaves the lines at their values of rule R39, and the later events move them. -/
  since : s.lines = s.sinceReset.foldl Lines.after Lines.atReset
  /-- Rule R100. -/
  read : s.lines.rdN = true
  /-- Rules R254 and R255. -/
  order : ∃ p : Phase, p.csN = s.lines.csN ∧ p.wrN = s.lines.wrN ∧ Phase.run s.backend p s.pending = some .idle
  /-- Rules R21 and R37. -/
  idle : s.busy = false → s.pending = [] ∧ s.closing = .nothing

end Sys2Proof.Machine
end

