-- ==== Sys2Proof/Certificates/Slice0/Obligations.lean ====
section
/-! DEFINITION. The statements about the model, each from a numbered rule of the spec or derived from its text. -/

open Sys2Proof Sys2Proof.Machine

/-! ### Requests, their bytes and the step -/

/-- Rules R90 to R92: the decoder reads every well-formed request back from its byte. -/
def Obligations.DecodeReadsEncodedRequest : Prop :=
  ∀ i : Instr, i.wf = true → decode (encode i) = .request i

/-- Rules R90 to R92: no other byte decodes to a request, so a legal byte means one request. -/
def Obligations.DecodeAcceptsOnlyEncodedBytes : Prop :=
  ∀ (b : Byte) (i : Instr), decode b = .request i → b = encode i

/-- Rule R105: the reserved request values, and no others, decode to no request. -/
def Obligations.ReservedValuesDecodeToNoRequest : Prop :=
  ∀ b : Byte, ReservedByte b ↔ ∀ i : Instr, decode b ≠ .request i

/-- Bytes written out from rules R90 and R92 decode to the request of their row. -/
def Obligations.WrittenOutBytesDecode : Prop :=
  decode 0b00010000 = .request .init ∧ decode 0b00100000 = .request .set ∧ decode 0b01010000 = .request .flush ∧
    decode 0b01110111 = .request .cmdClkRc ∧ decode 0b01111100 = .request .cmdComP16 ∧
    decode 0b10010000 = .request .drawg ∧ decode 0b10110000 = .request .width

/-- Rule R23: where the host's next access writes a byte that decodes to a well-formed request i to OPR, the step is
`exec i` with that access taken from the inputs. -/
def Obligations.StepRunsDecodedRequest : Prop :=
  ∀ (s : State) (b : Byte) (rest : List Input) (i : Instr),
    s.inputs = .write (.opr b) :: rest → decode b = .request i → i.wf = true →
      step s = exec i { s with inputs := rest }

/-- The interface: a request byte placed by `withFetchWord` is what the next step runs. -/
def Obligations.FetchedWordRunsNext : Prop :=
  ∀ (s : State) (i : Instr), step (s.withFetchWord 8 (encode i).toNat) = exec i s

/-- Rules R92, R93, R109: the writes of a program line put the line into the block. After them OPR holds the line's
byte, that byte decodes to a request, and the request with the operand registers gives the line back, with every
operand at every value. -/
def Obligations.LineWritesReadBackAsLine : Prop :=
  ∀ (s : State) (l : AsmLine), s.Open → s.StorageInv → s.inputs = [] → l.Fits s.cfg.textMax →
    ∃ (t : State) (i : Instr), Sys2Proof.core.run l.writes.length (s.issue l) = .next t ∧
      t.opr = l.oprByte ∧ decode t.opr = .request i ∧ t.lineOf i = l

/-! ### Acceptance and faults -/

/-- Rule R223: a reserved value written to OPR while neither check 1 nor check 2 of rule R221 applies raises
F_ILLEGAL_OP. Code 1 is recorded, OPR holds the value written, and nothing else changes. -/
def Obligations.ReservedValueRaisesIllegalOp : Prop :=
  ∀ (s : State) (b : Byte) (rest : List Input), s.Open → s.inputs = .write (.opr b) :: rest → ReservedByte b →
    ∃ t : State, step s = .next t ∧ t = { s with inputs := rest, opr := b, fault := .illegalOp } ∧
      t.statusWord.toNat / 16 = 1

/-- Rule R224: any legal request other than INIT while READY = 0 raises F_NOT_INIT, FIND and WIDTH among them. Code 2 is
recorded, and the request does nothing. -/
def Obligations.RequestBeforeInitRaisesNotInit : Prop :=
  ∀ (s : State) (i : Instr), s.Open → s.ready = false → i ≠ .init →
    ∃ t : State, exec i s = .next t ∧ t = { s with opr := encode i, fault := .notInit } ∧
      t.statusWord.toNat / 16 = 2

/-- Rule R225, its first two sentences: a write to any host-writable register while BUSY = 1 is discarded and raises
F_BUSY, code 3. -/
def Obligations.WriteWhileBusyRaisesBusy : Prop :=
  ∀ (s : State) (w : HostWrite) (rest : List Input), s.fault = .none → s.busy = true →
    s.inputs = .write w :: rest → w.Writable s.cfg.textMax →
      ∃ t : State, step s = .next t ∧ t = { s with inputs := rest, fault := .busy } ∧ t.statusWord.toNat / 16 = 3

/-- Rule R225: a write to any host-writable register while BUSY = 1 is discarded and raises F_BUSY, code 3. The request in
flight runs to its end where the transport accepts: all its events are sent, every frame it opened is closed,
INIT's last steps happen, and then BUSY is 0, with no other register changed. After that every request is refused without
effect. That the end of a request other than INIT leaves the framebuffer and the result registers as they are is the
model's reading, log entry 10: such a request has its effect when it starts. -/
def Obligations.RequestInFlightEndsAfterBusyWrite : Prop :=
  ∀ (s : State) (w : HostWrite) (rest : List Input), s.OutputInv → s.fault = .none → s.busy = true →
    s.inputs = .write w :: .pace .free :: rest → w.Writable s.cfg.textMax →
      ∃ t u : State, step s = .next t ∧ t = { s with inputs := .pace .free :: rest, fault := .busy } ∧
        t.statusWord.toNat / 16 = 3 ∧ step t = .next u ∧ u.fault = .busy ∧
        u.trace = s.trace ++ s.pending ∧ u.pending = [] ∧ u.lines.csN = true ∧ u.busy = false ∧
        (s.closing = .nothing → u.fb = s.fb ∧ u.ready = s.ready) ∧
        (s.closing = .zeroAndReady → u.fb = fbZero s.fb ∧ u.ready = true) ∧
        u.opr = s.opr ∧ u.argA = s.argA ∧ u.argB = s.argB ∧ u.argV = s.argV ∧ u.argC = s.argC ∧ u.txt = s.txt ∧
        u.txtLen = s.txtLen ∧ u.resFlag = s.resFlag ∧ u.resVal = s.resVal ∧ (∀ i : Instr, exec i u = .next u)

/-- Rule R226: DRAWG with ARG_C ≥ N_GLYPHS raises F_GLYPH_INDEX, code 4, before any pixel is written. -/
def Obligations.GlyphIndexOutOfRangeFaults : Prop :=
  ∀ s : State, s.Accepting → s.cfg.font.length ≤ s.argC.toNat →
    ∃ t : State, exec .drawg s = .next t ∧ t = { s with opr := 0x90, fault := .glyphIndex } ∧
      t.statusWord.toNat / 16 = 4

/-- Rule R227: TEXT or WIDTH with TXT_LEN > TEXT_MAX raises F_TEXT_LEN, code 5. -/
def Obligations.TextLongerThanBufferFaults : Prop :=
  ∀ s : State, s.Accepting → s.cfg.textMax < s.txtLen.toNat →
    (∃ t : State, exec .text s = .next t ∧ t = { s with opr := 0xA0, fault := .textLen } ∧
      t.statusWord.toNat / 16 = 5) ∧
    (∃ t : State, exec .width s = .next t ∧ t = { s with opr := 0xB0, fault := .textLen } ∧
      t.statusWord.toNat / 16 = 5)

/-- Rule R230: which fault a write to OPR leaves recorded is decided by the first check of rule R221 that applies. -/
def Obligations.FaultPriorityIsCheckOrder : Prop :=
  ∀ (s t : State) (b : Byte) (rest : List Input), s.inputs = .write (.opr b) :: rest → step s = .next t →
    (s.fault ≠ .none → t.fault = s.fault) ∧
    (s.fault = .none → s.busy = true → t.fault = .busy) ∧
    (s.Open → ReservedByte b → t.fault = .illegalOp) ∧
    (∀ i : Instr, s.Open → decode b = .request i →
      t.fault =
        if s.ready = false ∧ i ≠ .init then .notInit
        else if i = .drawg ∧ s.cfg.font.length ≤ s.argC.toNat then .glyphIndex
        else if (i = .text ∨ i = .width) ∧ s.cfg.textMax < s.txtLen.toNat then .textLen
        else .none)

/-- Rules R221 check 1 and R232: a faulted block ignores every host write, and the first fault code stays. -/
def Obligations.FaultedBlockIgnoresWrites : Prop :=
  ∀ (s : State) (w : HostWrite) (rest : List Input), s.fault ≠ .none → s.inputs = .write w :: rest →
    w.Writable s.cfg.textMax → step s = .next { s with inputs := rest }

/-- Rule R222: a host write that raises a fault changes STATUS.FAULT, and no other register but OPR, no framebuffer
bit and no output. F_BUSY leaves OPR too. -/
def Obligations.FaultLeavesNoPartialEffect : Prop :=
  ∀ (s t : State) (w : HostWrite) (rest : List Input), s.fault = .none → s.inputs = .write w :: rest →
    step s = .next t → t.fault ≠ .none →
      t = { s with inputs := rest, fault := t.fault, opr := t.opr } ∧
        (t.fault = .busy → t.opr = s.opr) ∧ (t.fault ≠ .busy → w = .opr t.opr)

/-- Rule R232: no step clears a fault, or replaces its code, unless the reset input is asserted, and then the fault is
cleared. -/
def Obligations.OnlyResetClearsFault : Prop :=
  ∀ s t : State, step s = .next t → s.fault ≠ .none →
    (s.inputs.head? ≠ some .reset → t.fault = s.fault) ∧ (s.inputs.head? = some .reset → t.fault = .none)

/-! ### Host registers -/

/-- Rule R221, its last two sentences: a write to a host-writable register other than OPR is stored when neither check
1 nor check 2 applies, and no other register changes. -/
def Obligations.OperandWriteIsStored : Prop :=
  ∀ (s : State) (rest : List Input), s.Open → s.StorageInv →
    (∀ v : Word, s.inputs = .write (.argA v) :: rest → step s = .next { s with inputs := rest, argA := v }) ∧
    (∀ v : Word, s.inputs = .write (.argB v) :: rest → step s = .next { s with inputs := rest, argB := v }) ∧
    (∀ v : Bool, s.inputs = .write (.argV v) :: rest → step s = .next { s with inputs := rest, argV := v }) ∧
    (∀ v : CodePoint, s.inputs = .write (.argC v) :: rest → step s = .next { s with inputs := rest, argC := v }) ∧
    (∀ v : Word, s.inputs = .write (.txtLen v) :: rest → step s = .next { s with inputs := rest, txtLen := v }) ∧
    (∀ (i : Nat) (v : CodePoint), s.inputs = .write (.txt i v) :: rest → i < s.cfg.textMax →
      ∃ m : TextBuffer, step s = .next { s with inputs := rest, txt := m } ∧
        ∀ j : Nat, TextBuffer.read m j = if j = i then v else TextBuffer.read s.txt j)

/-- Rule R38: a host write to RES_FLAG, RES_VAL or STATUS is ignored, in every state. -/
def Obligations.ReadOnlyRegistersIgnoreWrites : Prop :=
  ∀ (s : State) (rest : List Input),
    (∀ v : Bool, s.inputs = .write (.resFlag v) :: rest → step s = .next { s with inputs := rest }) ∧
    (∀ v : BitVec 32, s.inputs = .write (.resVal v) :: rest → step s = .next { s with inputs := rest }) ∧
    (∀ v : Byte, s.inputs = .write (.status v) :: rest → step s = .next { s with inputs := rest })

/-- The host may read the registers of rule R38. That a read of one that exists changes nothing (its input is taken) and
that its value is the function `State.hostRead`, each register zero-extended to 32 bits, is the model's choice, log entry
16: no rule gives a host read an effect or a width. The value is what the register holds (rules R23 to R25), STATUS as
its fields stand (rule R30). -/
def Obligations.HostReadsGiveRegisters : Prop :=
  (∀ (s : State) (r : HostReg) (rest : List Input), s.inputs = .read r :: rest →
    (∀ i : Nat, r = .txt i → i < s.cfg.textMax) → step s = .next { s with inputs := rest }) ∧
  ∀ s : State,
    (s.hostRead .opr).toNat = s.opr.toNat ∧ (s.hostRead .argA).toNat = s.argA.toNat ∧
    (s.hostRead .argB).toNat = s.argB.toNat ∧ (s.hostRead .argV).toNat = (if s.argV = true then 1 else 0) ∧
    (s.hostRead .argC).toNat = s.argC.toNat ∧
    (∀ i : Nat, (s.hostRead (.txt i)).toNat = (TextBuffer.read s.txt i).toNat) ∧
    (s.hostRead .txtLen).toNat = s.txtLen.toNat ∧ (s.hostRead .resFlag).toNat = (if s.resFlag = true then 1 else 0) ∧
    s.hostRead .resVal = s.resVal ∧ (s.hostRead .status).toNat = s.statusWord.toNat

/-- Rule R22, as the model takes it: an access to a text cell that does not exist stops by name. The model's own choice,
log entry 8. -/
def Obligations.MissingTextCellStops : Prop :=
  ∀ (s : State) (i : Nat) (rest : List Input), s.cfg.textMax ≤ i →
    (∀ v : CodePoint, s.inputs = .write (.txt i v) :: rest → step s = .fault (.noTextCell i)) ∧
    (s.inputs = .read (.txt i) :: rest → step s = .fault (.noTextCell i))

/-- Rules R30 and R31: the bits of STATUS. -/
def Obligations.StatusFieldsStandWhereStated : Prop :=
  ∀ s : State, s.statusWord.getLsbD 0 = s.busy ∧ s.statusWord.getLsbD 1 = s.ready ∧
    s.statusWord.getLsbD 2 = false ∧ s.statusWord.getLsbD 3 = false ∧
    (s.statusWord.toNat / 16 =
      match s.fault with
      | .none => 0
      | .illegalOp => 1
      | .notInit => 2
      | .busy => 3
      | .glyphIndex => 4
      | .textLen => 5)

/-- Rules R24 and R25: no request changes an operand register or the text, only GET and FIND write RES_FLAG, and only
FIND and WIDTH write RES_VAL. -/
def Obligations.RequestsKeepOperandAndResultRegisters : Prop :=
  ∀ (i : Instr) (s t : State), exec i s = .next t →
    t.argA = s.argA ∧ t.argB = s.argB ∧ t.argV = s.argV ∧ t.argC = s.argC ∧ t.txt = s.txt ∧ t.txtLen = s.txtLen ∧
      (i ≠ .get → i ≠ .find → t.resFlag = s.resFlag) ∧ (i ≠ .find → i ≠ .width → t.resVal = s.resVal)

/-! ### Framebuffer -/

/-- Rules R120 and R130: SET writes ARG_V into the one pixel (ARG_A, ARG_B) where it is in range, and no other bit of
the physical framebuffer, padding included, changes. Out of range nothing changes. It ends where the pace covers its end;
what it does under a pace that does not is in SilentRequestsSendNothing (log entry 6). -/
def Obligations.SetWritesOnePixel : Prop :=
  ∀ s : State, s.Accepting → s.pace.Covers 1 →
    ∃ fb : Framebuffer, exec .set s = .next { s.afterRequest .set [] with fb := fb } ∧
      fb.backend = s.fb.backend ∧
      ∀ x y : Nat, x < 16 → y < 12 →
        fb.pixel x y =
          if x < 12 ∧ (x : Int) = s.argA.toInt ∧ (y : Int) = s.argB.toInt then s.argV else s.fb.pixel x y

/-- Rules R121 and R131: GET puts the pixel into RES_FLAG, and 0 where a coordinate is out of range. -/
def Obligations.GetReadsPixel : Prop :=
  ∀ s : State, s.Accepting → s.pace.Covers 1 →
    ∃ v : Bool, exec .get s = .next { s.afterRequest .get [] with resFlag := v } ∧
      (∀ x y : Nat, x < 12 → y < 12 → s.argA.toInt = x → s.argB.toInt = y → v = s.fb.pixel x y) ∧
      (¬ (0 ≤ s.argA.toInt ∧ s.argA.toInt < 12 ∧ 0 ≤ s.argB.toInt ∧ s.argB.toInt < 12) → v = false)

/-- Rule R131 and the source's property S1, S2: a GET after a SET of the same coordinates gives the value set where they
are in range, and 0 where they are not. -/
def Obligations.GetAfterSetReturnsValue : Prop :=
  ∀ s t u : State, s.Accepting → s.pace = .free → exec .set s = .next t → exec .get t = .next u →
    u.resFlag =
      if 0 ≤ s.argA.toInt ∧ s.argA.toInt < 12 ∧ 0 ≤ s.argB.toInt ∧ s.argB.toInt < 12 then s.argV else false

/-- Rules R123 and R132: FILL sets every pixel to ARG_V and leaves every padding bit 0, with the words and bytes that
rule R123 gives. -/
def Obligations.FillSetsEveryPixel : Prop :=
  ∀ s : State, s.Accepting → s.pace.Covers 1 →
    ∃ fb : Framebuffer, exec .fill s = .next { s.afterRequest .fill [] with fb := fb } ∧
      fb.backend = s.fb.backend ∧
      (∀ x y : Nat, x < 16 → y < 12 → fb.pixel x y = (decide (x < 12) && s.argV)) ∧
      (∀ w : Vector Word 12, fb = .gpio w → ∀ y : Nat, y < 12 →
        rowWord w y = if s.argV = true then 0xFFF0 else 0x0000) ∧
      (∀ b : Vector Byte 24, fb = .spi b → ∀ y : Nat, y < 12 →
        fbByte b (2 * y) = (if s.argV = true then 0xFF else 0x00) ∧
        fbByte b (2 * y + 1) = (if s.argV = true then 0x0F else 0x00))

/-- Rule R127: the layout converter round-trips, for every grid, and so does the conversion of either physical layout
into the other and back. -/
def Obligations.LayoutConverterRoundTrips : Prop :=
  ∀ x y : Nat, x < 12 → y < 12 →
    (∀ p : Nat → Nat → Bool, decS (encS p) x y = p x y ∧ decG (encG p) x y = p x y) ∧
    (∀ w : Vector Word 12, decG (encG (decS (encS (decG w)))) x y = decG w x y) ∧
    (∀ b : Vector Byte 24, decS (encS (decG (encG (decS b)))) x y = decS b x y)

/-- Rules R124 and R126: which bits of the words and bytes hold the columns of row y, and that the encoders leave the
padding columns 0. -/
def Obligations.EncodedPaddingIsZero : Prop :=
  ∀ p : Nat → Nat → Bool,
    (Framebuffer.gpio (encG p)).paddingZero = true ∧ (Framebuffer.spi (encS p)).paddingZero = true

/-- Rule R126: byte 2y holds columns 0 to 7 of row y and byte 2y+1 columns 8 to 15, each nibble with its first column at
its top bit. -/
def Obligations.SpiBytesHoldColumns : Prop :=
  ∀ (b : Vector Byte 24) (y k : Nat), y < 12 → k < 4 →
    (Framebuffer.spi b).pixel k y = (fbByte b (2 * y)).getLsbD (3 - k) ∧
    (Framebuffer.spi b).pixel (4 + k) y = (fbByte b (2 * y)).getLsbD (7 - k) ∧
    (Framebuffer.spi b).pixel (8 + k) y = (fbByte b (2 * y + 1)).getLsbD (3 - k) ∧
    (Framebuffer.spi b).pixel (12 + k) y = (fbByte b (2 * y + 1)).getLsbD (7 - k)

/-- Rule R128: for every sequence of register accesses and of requests that send no frame, a GPIO block and an SPI block
that start from the same grid and registers end with the same grid and registers, GET's result among them. -/
def Obligations.BackendsAgreeLogically : Prop :=
  ∀ (n : Nat) (a b : State), LogicallySame a b → (∀ x ∈ a.inputs, x.Silent) →
    ∀ a' : State, Sys2Proof.core.run n a = .next a' →
      ∃ b' : State, Sys2Proof.core.run n b = .next b' ∧ LogicallySame a' b'

/-! ### Frames and the protocol family -/

/-- Rules R95, R97 and R98: the fields of a G-CMD word and the order its bits go in, the fields and the two bytes of an
S-CMD word, and the fields of an S-DATA word, each as the frame that is sent. -/
def Obligations.FrameWordsHaveStatedFields : Prop :=
  (∀ c : Byte, gCmd c = (0b100 : BitVec 3) ++ c ++ (0 : BitVec 1) ∧ gCmd c = 0x800 ||| (c.zeroExtend 12 <<< 1) ∧
    sendCmd .gpio c = gpioFrame ([true, false, false] ++ byteBits c ++ [false])) ∧
  (∀ c : Byte, sCmd c = (0b100 : BitVec 3) ++ c ++ (0 : BitVec 5) ∧ sCmd c = 0x8000 ||| (c.zeroExtend 16 <<< 5) ∧
    sendCmd .spi c =
      [.pin .csN false, .spiByte (0x80 ||| (c >>> 3)), .spiByte ((c <<< 5) &&& 0xE0), .pin .csN true]) ∧
  (∀ (a : BitVec 7) (nib : BitVec 4), sData a nib = (0b101 : BitVec 3) ++ a ++ nib ++ (0 : BitVec 2) ∧
    sData a nib = 0xA000 ||| (a.zeroExtend 16 <<< 6) ||| (nib.zeroExtend 16 <<< 2) ∧
    sendNib a.toNat nib = spiTxn (sData a nib))

/-- Rule R141: `gpio_frame(bits)` latches exactly `bits`, and `spi_txn(w)` latches w[15] to w[0], each as one frame. -/
def Obligations.FramesLatchTheirBits : Prop :=
  ∀ l : Latch, l.csN = true →
    (∀ bits : List Bool, ((gpioFrame bits).foldl Latch.after l).frames = l.frames ++ [bits] ∧
      ((gpioFrame bits).foldl Latch.after l).csN = true) ∧
    (∀ w : Word, ((spiTxn w).foldl Latch.after l).frames =
        l.frames ++ [(List.range 16).map fun k => w.getLsbD (15 - k)] ∧
      ((spiTxn w).foldl Latch.after l).csN = true)

/-- Rules R148 and R151 to R163: each CMD request sends the one command frame of its byte C and changes nothing else. In
GPIO that is 39 pin events, in SPI four events. -/
def Obligations.CommandRequestSendsItsFrame : Prop :=
  ∀ (i : Instr) (c : Byte) (s : State), (i, c) ∈ commandTable → s.Accepting →
    (s.backend = .gpio → s.pace.Covers 40 →
      exec i s = .next (s.afterRequest i (gpioFrame ([true, false, false] ++ byteBits c ++ [false])))) ∧
    (s.backend = .spi → s.pace.Covers 5 →
      exec i s = .next (s.afterRequest i (spiTxn ((0b100 : BitVec 3) ++ c ++ (0 : BitVec 5)))))

/-- Rules R101 and R150: BRIGHT sends the PWM command for ARG_A clamped into 0 to 15, and changes nothing else. -/
def Obligations.BrightSendsClampedDuty : Prop :=
  ∀ (s : State) (p : Nat), s.Accepting →
    (p : Int) = (if s.argA.toInt < 0 then 0 else if 15 < s.argA.toInt then 15 else s.argA.toInt) →
    (s.backend = .gpio → s.pace.Covers 40 →
      exec .bright s = .next (s.afterRequest .bright
        (gpioFrame ([true, false, false] ++ byteBits (BitVec.ofNat 8 (0xA0 + p)) ++ [false])))) ∧
    (s.backend = .spi → s.pace.Covers 5 →
      exec .bright s = .next (s.afterRequest .bright
        (spiTxn ((0b100 : BitVec 3) ++ BitVec.ofNat 8 (0xA0 + p) ++ (0 : BitVec 5)))))

/-- Rules R164 and R166, GPIO: FLUSH sends one frame of 101, seven zeros and the twelve row words, bit 15 first, which is
609 pin events, and changes nothing else. -/
def Obligations.GpioFlushSendsRowWords : Prop :=
  ∀ (s : State) (w : Vector Word 12), s.Accepting → s.fb = .gpio w → s.pace.Covers 610 →
    ∃ es : List Event, exec .flush s = .next (s.afterRequest .flush es) ∧ es.length = 609 ∧
      es = gpioFrame ([true, false, true] ++ List.replicate 7 false ++
        (List.range 12).flatMap fun y => (List.range 16).map fun k => (rowWord w y).getLsbD (15 - k))

/-- Rules R103, R165 and R166, SPI: FLUSH sends 48 transactions in ascending address order, transaction a with nibble
`(FBB[a/2] >> (4*(a%2))) & 0xF`, which is 192 events, and changes nothing else. -/
def Obligations.SpiFlushSendsNibbles : Prop :=
  ∀ (s : State) (b : Vector Byte 24), s.Accepting → s.fb = .spi b → s.pace.Covers 193 →
    ∃ es : List Event, exec .flush s = .next (s.afterRequest .flush es) ∧ es.length = 192 ∧
      es = (List.range 48).flatMap fun a =>
        spiTxn ((0b101 : BitVec 3) ++ BitVec.ofNat 7 a ++
          BitVec.ofNat 4 ((fbByte b (a / 2)).toNat / 16 ^ (a % 2)) ++ (0 : BitVec 2))

/-- Rule R65, under rule R64 and for the reference receiver of rule R66, which is PRESUMED (log entry 17): after FLUSH,
logical pixel (x, y) is at chip RAM address 4y + x/4, bit D(x % 4), and columns 12 to 15 are written as 0, in both
backends. Rules R73 and R260: while the frames are clocked in, the RAM changes nibble by nibble. After n events the
nibbles whose bits were all latched are new and the others are old. A nibble's last bit is event 44 + 12a of the GPIO
frame, and the low byte of its transaction, event 4a + 3, in SPI. No other chip address changes, and no command is
received. -/
def Obligations.FlushPutsGridIntoChip : Prop :=
  ∀ s t : State, s.Accepting → s.StorageInv → s.OutputInv → exec .flush s = .next t →
    (s.pace = .free → ∀ x y : Nat, x < 16 → y < 12 →
      t.chip.ram (4 * y + x / 4) (x % 4) = some (decide (x < 12) && s.fb.pixel x y)) ∧
    (∀ n : Nat, s.pace = .units n → ∀ x y : Nat, x < 16 → y < 12 →
      t.chip.ram (4 * y + x / 4) (x % 4) =
        if (s.backend = .gpio ∧ 44 + 12 * (4 * y + x / 4) ≤ n) ∨ (s.backend = .spi ∧ 4 * (4 * y + x / 4) + 3 ≤ n)
        then some (decide (x < 12) && s.fb.pixel x y) else s.chip.ram (4 * y + x / 4) (x % 4)) ∧
    (∀ a d : Nat, 48 ≤ a → t.chip.ram a d = s.chip.ram a d) ∧ t.chip.commands = s.chip.commands

/-- Rules R171 and R172, and the rest of R170: INIT, ready or not, sends the seven commands and the clear-display in the
fixed order, as 1458 pin events (GPIO) or 103 transactions and 412 events (SPI), and ends with the framebuffer all 0
and READY = 1. -/
def Obligations.InitSendsItsSequence : Prop :=
  ∀ s : State, s.Open →
    (s.backend = .gpio → s.pace.Covers 1459 →
      ∃ es : List Event, exec .init s =
          .next { s.afterRequest .init es with fb := .gpio (Vector.replicate 12 0), ready := true } ∧
        es.length = 1458 ∧
        es = ([0x00, s.cfg.comMode, 0x18, 0x01, 0xAF, 0x08, 0x03] : List Byte).flatMap
            (fun c => gpioFrame ([true, false, false] ++ byteBits c ++ [false])) ++
          gpioFrame ([true, false, true] ++ List.replicate 7 false ++ List.replicate 384 false)) ∧
    (s.backend = .spi → s.pace.Covers 413 →
      ∃ es : List Event, exec .init s =
          .next { s.afterRequest .init es with fb := .spi (Vector.replicate 24 0), ready := true } ∧
        es.length = 412 ∧
        es = ([0x00, s.cfg.comMode, 0x18, 0x01, 0xAF, 0x08, 0x03] : List Byte).flatMap
            (fun c => spiTxn ((0b100 : BitVec 3) ++ c ++ (0 : BitVec 5))) ++
          (List.range 96).flatMap fun a =>
            spiTxn ((0b101 : BitVec 3) ++ BitVec.ofNat 7 a ++ (0 : BitVec 4) ++ (0 : BitVec 2)))

/-- Rule R253: what INIT leaves. The framebuffer is all 0 with its padding, READY = 1, CS_N = WR_N = 1, in GPIO DATA = 0
and DATA_DIR = out, and under the reference receiver (PRESUMED, log entry 17) chip RAM 0x00 to 0x5F is 0 and the last
commands are INIT's. -/
def Obligations.InitLeavesBlockAndChipClear : Prop :=
  ∀ s t : State, s.Open → s.OutputInv → s.pace = .free → exec .init s = .next t →
    (∀ x y : Nat, x < 16 → y < 12 → t.fb.pixel x y = false) ∧ t.ready = true ∧
    t.lines.csN = true ∧ t.lines.wrN = true ∧
    (s.backend = .gpio → t.lines.data = false ∧ t.lines.dataDir = .out) ∧
    (∀ a d : Nat, a < 96 → d < 4 → t.chip.ram a d = some false) ∧
    (∀ a d : Nat, 96 ≤ a → t.chip.ram a d = s.chip.ram a d) ∧
    t.chip.commands = s.chip.commands ++ [0x00, s.cfg.comMode, 0x18, 0x01, 0xAF, 0x08, 0x03]

/-- Rules R74 and R133: SET, GET, FILL, FIND, DRAWG, TEXT and WIDTH produce no output event, in any state. The second
clause is the model's choice, log entries 6 and 10: under a pace without a unit such a request has its whole effect too,
and is left BUSY so that an input can land there; if none is to come, the next step ends it with nothing else changed,
since no rule makes it wait for the transport. -/
def Obligations.SilentRequestsSendNothing : Prop :=
  ∀ (i : Instr) (s t : State), i ∈ silentRequests → exec i s = .next t →
    (t.trace = s.trace ∧ t.lines = s.lines) ∧
    ∀ u : State, s.Accepting → s.pace = .units 0 → exec i { s with pace := .free } = .next u → u.fault = .none →
      t = { u with pace := .units 0, busy := true } ∧ (s.inputs = [] → step t = .next { t with busy := false })

/-- Rules R37, R145, R254, R255: where the transport accepts every event, a request that starts ends, and what it sent is
whole frames, each bracketed by CS_N and in the strict order of its backend. -/
def Obligations.RequestsSendWholeFrames : Prop :=
  ∀ (i : Instr) (s t : State), s.Open → s.pace = .free → exec i s = .next t →
    t.busy = false ∧ ∃ es : List Event, t.trace = s.trace ++ es ∧ Phase.run s.backend .idle es = some .idle

/-- Rules R100 and R107: every frame a request sends is a command frame, of ID 100 and 12 bits in GPIO, or a write frame,
of ID 101 and 202 bits (FLUSH) or 394 bits (INIT's clear-display) in GPIO. Every SPI frame has 16 bits. No frame has
ID 110, and RD_N stays as it was. -/
def Obligations.FramesHaveStatedIdAndLength : Prop :=
  ∀ (i : Instr) (s t : State), s.Open → s.OutputInv → s.pace = .free → exec i s = .next t →
    t.lines.rdN = true ∧
    ∃ fs : List (List Bool), latchedFrames t.trace = latchedFrames s.trace ++ fs ∧
      ∀ f ∈ fs,
        (s.backend = .gpio →
          (f.take 3 = [true, false, false] ∧ f.length = 12) ∨
          (f.take 3 = [true, false, true] ∧ i = .flush ∧ f.length = 202) ∨
          (f.take 3 = [true, false, true] ∧ i = .init ∧ f.length = 394)) ∧
        (s.backend = .spi →
          (f.take 3 = [true, false, false] ∨ f.take 3 = [true, false, true]) ∧ f.length = 16)

/-! ### Glyph family -/

/-- Rules R193, R194 and R200: FIND gives the index of the record whose code is ARG_C, compared at 21 bits, and (0, 0)
where there is none. -/
def Obligations.FindIsExactMatch : Prop :=
  ∀ s : State, s.Accepting → s.cfg.wf = true → s.pace.Covers 1 →
    (∀ (g : Nat) (r : Glyph), s.cfg.font[g]? = some r → r.code.toNat = s.argC.toNat →
      exec .find s = .next { s.afterRequest .find [] with resFlag := true, resVal := BitVec.ofNat 32 g }) ∧
    ((∀ r ∈ s.cfg.font, r.code.toNat ≠ s.argC.toNat) →
      exec .find s = .next { s.afterRequest .find [] with resFlag := false, resVal := 0 })

/-- Rules R191, R195 and R201: DRAWG lights the pixels that the glyph's lit pixels go to under the axis swap, clipped to
the 12×12 region, and changes no other bit. -/
def Obligations.DrawgLightsSwappedPixels : Prop :=
  ∀ s : State, s.Accepting → s.pace.Covers 1 → s.argC.toNat < s.cfg.font.length →
    ∃ fb : Framebuffer, exec .drawg s = .next { s.afterRequest .drawg [] with fb := fb } ∧
      fb.backend = s.fb.backend ∧
      ∀ x y : Nat, x < 16 → y < 12 →
        (fb.pixel x y = true ↔
          s.fb.pixel x y = true ∨ GlyphLights s.cfg.font s.argC.toNat s.argA.toInt s.argB.toInt x y)

/-- Rules R196 and R202: TEXT draws the glyph of every code point found, each at the cursor that the advances of the code
points before it give, and changes no other bit. -/
def Obligations.TextDrawsGlyphsAtCursors : Prop :=
  ∀ s : State, s.Accepting → s.pace.Covers 1 → s.txtLen.toNat ≤ s.cfg.textMax →
    ∃ fb : Framebuffer, exec .text s = .next { s.afterRequest .text [] with fb := fb } ∧
      fb.backend = s.fb.backend ∧
      ∀ x y : Nat, x < 16 → y < 12 →
        (fb.pixel x y = true ↔
          s.fb.pixel x y = true ∨
            ∃ k g : Nat, k < s.txtLen.toNat ∧ find s.cfg.font (TextBuffer.read s.txt k) = some g ∧
              GlyphLights s.cfg.font g (s.argA.toInt + advanceBefore s k) s.argB.toInt x y)

/-- Rules R196 and R203: WIDTH puts the sum of the advances of the text into RES_VAL, exactly, and changes nothing
else. -/
def Obligations.WidthSumsAdvances : Prop :=
  ∀ s : State, s.Accepting → s.pace.Covers 1 → s.txtLen.toNat ≤ s.cfg.textMax →
    ∃ v : BitVec 32, exec .width s = .next { s.afterRequest .width [] with resVal := v } ∧
      v.toNat = advanceBefore s s.txtLen.toNat

/-- Rule R29: after any first part of the text, the cursor CX and the width WACC of the model's text traversal, which are
exact integers (log entry 9), are the start and 0 plus the advances so far, |CX| < 32768 + 15·65535, WACC ≤ 15·65535, and
the framebuffer coordinates CX + 10 and y0 + 10 fit in s32. This holds from TEXT's start (ARG_A, ARG_B) and from WIDTH's
(0, 0), drawing or not. -/
def Obligations.CursorAndWidthNeverOverflow : Prop :=
  ∀ (s : State) (k : Nat) (x0 y0 : Int) (draw : Bool) (walk : Walk), k ≤ s.txtLen.toNat →
    (x0 = s.argA.toInt ∧ y0 = s.argB.toInt) ∨ (x0 = 0 ∧ y0 = 0) →
    walk = textWalk s.cfg.font x0 y0 (s.operandText.take k) draw s.fb →
      walk.cx = x0 + advanceBefore s k ∧ walk.w = advanceBefore s k ∧
      |walk.cx| < 32768 + 15 * 65535 ∧ walk.w ≤ 15 * 65535 ∧
      |walk.cx + 10| < 2 ^ 31 ∧ |y0 + 10| < 2 ^ 31

/-! ### Reset, waiting, and what every step keeps -/

/-- Rule R39: the values the spec gives for the state right after reset, for every configuration and whatever value the
framebuffer has, which the spec leaves unspecified. The chip's state is unknown. `State.reset` is one such state. -/
def Obligations.ResetStateHasStatedValues : Prop :=
  (∀ (cfg : Config) (fb : Framebuffer),
    (State.atReset cfg fb).statusWord = 0 ∧ (State.atReset cfg fb).opr = 0 ∧ (State.atReset cfg fb).argA = 0 ∧
    (State.atReset cfg fb).argB = 0 ∧ (State.atReset cfg fb).argV = false ∧ (State.atReset cfg fb).argC = 0 ∧
    (State.atReset cfg fb).txtLen = 0 ∧ (∀ i : Nat, TextBuffer.read (State.atReset cfg fb).txt i = 0) ∧
    (State.atReset cfg fb).resFlag = false ∧ (State.atReset cfg fb).resVal = 0 ∧
    (State.atReset cfg fb).lines = { csN := true, wrN := true, rdN := true, data := false, dataDir := .input } ∧
    (State.atReset cfg fb).trace = [] ∧ (∀ a d : Nat, (State.atReset cfg fb).chip.ram a d = none)) ∧
  ∃ (cfg : Config) (fb : Framebuffer), State.reset = State.atReset cfg fb

/-- Rules R39 and R250: asserting reset, whatever state the block is in, abandons the request in flight, gives every
register, status field and line its reset value, keeps the trace and appends one pin event for each line whose level
changes, and none for another. -/
def Obligations.ResetInputRestoresAndClosesFrame : Prop :=
  ∀ (s : State) (rest : List Input), s.inputs = .reset :: rest →
    ∃ (t : State) (es : List Event), step s = .next t ∧ t.statusWord = 0 ∧ t.fault = .none ∧ t.pending = [] ∧
      t.closing = .nothing ∧ t.opr = 0 ∧ t.argA = 0 ∧ t.argB = 0 ∧ t.argV = false ∧ t.argC = 0 ∧ t.txtLen = 0 ∧
      (∀ i : Nat, TextBuffer.read t.txt i = 0) ∧ t.resFlag = false ∧ t.resVal = 0 ∧
      t.lines = { csN := true, wrN := true, rdN := true, data := false, dataDir := .input } ∧
      t.trace = s.trace ++ es ∧ es.Nodup ∧
      (∀ e : Event, e ∈ es ↔
        (e = .pin .csN true ∧ s.lines.csN = false) ∨ (e = .pin .wrN true ∧ s.lines.wrN = false) ∨
        (e = .pin .rdN true ∧ s.lines.rdN = false) ∨ (e = .pin .data false ∧ s.lines.data = true) ∨
        (e = .dir .input ∧ s.lines.dataDir = .out)) ∧
      t.cfg = s.cfg ∧ t.backend = s.backend ∧ t.inputs = rest

/-- Rule R251: a reset sends no frame, so no byte and no fall of CS_N is among the events it appends. What the chip holds
after it is any value, as item U21 says: nothing is known of its RAM and its mode (the model's form of this is log
entry 24), until a later frame writes it. -/
def Obligations.ResetSendsNoFrameAndLeavesChipOpen : Prop :=
  ∀ (s : State) (rest : List Input), s.inputs = .reset :: rest →
    ∃ (t : State) (es : List Event), step s = .next t ∧ t.trace = s.trace ++ es ∧
      (∀ e ∈ es, e ≠ .pin .csN false ∧ ∀ b : Byte, e ≠ .spiByte b) ∧
      (∀ a d : Nat, t.chip.ram a d = none) ∧ t.chip.commands = []

/-- Rule R228: an encoder with events left whose transport accepts nothing more waits with BUSY = 1 for as long as no reset and no new
draw of the transport comes, whatever the host does: it sends nothing, abandons nothing and times nothing out. -/
def Obligations.StalledEncoderWaits : Prop :=
  ∀ (n : Nat) (s t : State), s.busy = true → s.pending ≠ [] → s.pace = .units 0 → (∀ x ∈ s.inputs, x.LiftsNoWait) →
    Sys2Proof.core.run n s = .next t →
      t.busy = true ∧ t.pending = s.pending ∧ t.closing = s.closing ∧ t.trace = s.trace ∧ t.lines = s.lines ∧
        t.fb = s.fb

/-- Rule R146: a pause of the transport changes nothing in the end. A request that waits after any number of events and
then goes on freely ends in the state it would have ended in without the pause. -/
def Obligations.PausedRequestEndsTheSame : Prop :=
  ∀ (s : State) (n : Nat) (rest : List Input), s.busy = true →
    Sys2Proof.core.run 2 { s with inputs := .pace (.units n) :: .pace .free :: rest } =
      Sys2Proof.core.run 1 { s with inputs := .pace .free :: rest }

/-- The model's choice, log entry 7: what the environment does next is the model's own list `inputs`, and a step takes its
first entry, if there is one, and leaves the others as they are. So the host's accesses land one at a time in the order
given, which is the order that rule R77 speaks of. -/
def Obligations.StepTakesInputsInOrder : Prop :=
  ∀ s t : State, step s = .next t → t.inputs = s.inputs.tail

/-- Rule R7: no step changes the configuration, the backend included. -/
def Obligations.ConfigurationNeverChanges : Prop :=
  ∀ s t : State, step s = .next t → t.cfg = s.cfg ∧ t.backend = s.backend

/-- Rule R8: a configuration is taken exactly when the rule's conditions hold, and refused by name otherwise. -/
def Obligations.OnlyWellFormedConfigurationsAreTaken : Prop :=
  ∀ (c : Config) (fb : Framebuffer),
    let good := (c.comMode = 0x24 ∨ c.comMode = 0x2C) ∧ (c.font.map Glyph.code).Pairwise (· < ·) ∧
      (∀ g ∈ c.font, g.bytes.length = 16) ∧ 1 ≤ c.textMax ∧ c.textMax ≤ 65535 ∧ (c.spiMode = 0 ∨ c.spiMode = 3)
    (good → configure c fb = .next (State.atReset c fb)) ∧ (¬ good → configure c fb = .refused .illFormedConfig)

/-- Rules R8, R27, R28 and R61: from every state in which the configuration is well formed, the text buffer canonical and
the padding 0 once READY = 1, every step leads to such a state. -/
def Obligations.StepKeepsStorageInv : Prop :=
  ∀ s t : State, s.StorageInv → step s = .next t → t.StorageInv

/-- Rules R34, R37, R100, R254 and R255: from every state whose lines agree with its trace and whose open frame will be
closed in order, every step leads to such a state. -/
def Obligations.StepKeepsOutputInv : Prop :=
  ∀ s t : State, s.OutputInv → step s = .next t → t.OutputInv

/-- The storage invariant holds right after reset. -/
def Obligations.ResetStateHasStorageInv : Prop := State.reset.StorageInv

/-- The output invariant holds right after reset. -/
def Obligations.ResetStateHasOutputInv : Prop := State.reset.OutputInv
end

