-- ==== Sys2Proof/Laws/Layout.lean ====
section
/-! SUPPORT. The framebuffer's bits: what a pixel write, a fill and a zeroing change, and what they leave. A column
x < 16 of a row y < 12 names one bit of the physical array in both backends, padding included. -/

namespace Sys2Proof.Machine

theorem setBit_getLsbD {n : Nat} (w : BitVec n) (i j : Nat) (v : Bool) (hi : i < n) :
    (setBit w i v).getLsbD j = if j = i then v else w.getLsbD j := by
  unfold setBit
  by_cases hj : j = i
  · subst hj
    cases v <;> simp [hi]
  · cases v
    · simp only [Bool.false_eq_true, if_false, hj, BitVec.getLsbD_and, BitVec.getLsbD_not, BitVec.getLsbD_twoPow]
      by_cases hjn : j < n
      · simp [hjn, Ne.symm hj]
      · simp [BitVec.getLsbD_of_ge w j (by omega)]
    · simp [hj, Ne.symm hj]

theorem pixelIndex_div (x y : Nat) (_ : x < 16) : pixelIndex x y / 8 = 2 * y + x / 8 := by
  simp only [pixelIndex, Config.rowStride]; omega

theorem pixelIndex_mod (x y : Nat) : pixelIndex x y % 8 = x % 8 := by
  simp only [pixelIndex, Config.rowStride]; omega

theorem bitpos_lt {k : Nat} (h : k < 8) : bitpos k < 8 := by unfold bitpos; omega

theorem bitpos_inj {j k : Nat} (hj : j < 8) (hk : k < 8) (h : bitpos j = bitpos k) : j = k := by
  unfold bitpos at h; omega

theorem rowWord_set (w : Vector Word 12) (y y' : Nat) (v : Word) (hy : y < 12) :
    rowWord (w.setIfInBounds y v) y' = if y' = y then v else rowWord w y' := by
  unfold rowWord
  by_cases h : y' = y
  · subst h; simp [hy]
  · simp [h, Ne.symm h]

theorem fbByte_set (b : Vector Byte 24) (i i' : Nat) (v : Byte) (hi : i < 24) :
    fbByte (b.setIfInBounds i v) i' = if i' = i then v else fbByte b i' := by
  unfold fbByte
  by_cases h : i' = i
  · subst h; simp [hi]
  · simp [h, Ne.symm h]

/-- A pixel write changes one physical bit and no other (rule R69). -/
theorem Framebuffer.pixel_setPixel (fb : Framebuffer) {x y x' y' : Nat} (v : Bool) (hx : x < 12) (hy : y < 12)
    (hx' : x' < 16) :
    (fb.setPixel x y v).pixel x' y' = if x' = x ∧ y' = y then v else fb.pixel x' y' := by
  cases fb with
  | gpio w =>
    simp only [Framebuffer.setPixel, Framebuffer.pixel, rowWord_set w y y' _ hy]
    by_cases h : y' = y
    · subst h
      rw [if_pos rfl, setBit_getLsbD _ _ _ _ (by omega)]
      by_cases hxx : x' = x
      · simp [hxx]
      · rw [if_neg (by omega), if_neg (by simp [hxx])]
    · simp [h]
  | spi b =>
    simp only [Framebuffer.setPixel, Framebuffer.pixel, pixelIndex_div x y (by omega), pixelIndex_div x' y' hx',
      pixelIndex_mod]
    rw [fbByte_set b _ _ _ (by omega)]
    by_cases h : 2 * y' + x' / 8 = 2 * y + x / 8
    · rw [if_pos h, setBit_getLsbD _ _ _ _ (bitpos_lt (by omega)), ← h]
      by_cases hxx : x' = x ∧ y' = y
      · simp [hxx]
      · rw [if_neg hxx, if_neg]
        intro hb
        have := bitpos_inj (by omega) (by omega) hb
        omega
    · rw [if_neg h, if_neg (by rintro ⟨rfl, rfl⟩; exact h rfl)]

@[simp] theorem Framebuffer.backend_setPixel (fb : Framebuffer) (x y : Nat) (v : Bool) :
    (fb.setPixel x y v).backend = fb.backend := by cases fb <;> rfl

theorem inb_iff (x y : Int) : inb x y = true ↔ 0 ≤ x ∧ x < 12 ∧ 0 ≤ y ∧ y < 12 := by
  simp only [inb, Bool.and_eq_true, decide_eq_true_eq]
  omega

@[simp] theorem backend_fbSet (fb : Framebuffer) (x y : Int) (v : Bool) : (fbSet fb x y v).backend = fb.backend := by
  unfold fbSet; split <;> simp

@[simp] theorem backend_fbFill (fb : Framebuffer) (v : Bool) : (fbFill fb v).backend = fb.backend := by
  cases fb <;> rfl

@[simp] theorem backend_fbZero (fb : Framebuffer) : (fbZero fb).backend = fb.backend := by cases fb <;> rfl

@[simp] theorem backend_fbUnspecified (fb : Framebuffer) (n : Nat) : (fbUnspecified fb n).backend = fb.backend := by
  cases fb <;> rfl

/-- What FbSet changes: the one bit named, if the coordinates are in range (rule R120). -/
theorem pixel_fbSet (fb : Framebuffer) (x y : Int) (v : Bool) {x' y' : Nat} (hx' : x' < 16) (hy' : y' < 12) :
    (fbSet fb x y v).pixel x' y' =
      if x' < 12 ∧ (x' : Int) = x ∧ (y' : Int) = y then v else fb.pixel x' y' := by
  unfold fbSet
  by_cases h : inb x y = true
  · rw [if_pos h]
    rw [inb_iff] at h
    rw [Framebuffer.pixel_setPixel fb v (by omega) (by omega) hx']
    by_cases hc : x' = x.toNat ∧ y' = y.toNat
    · rw [if_pos hc, if_pos (by omega)]
    · rw [if_neg hc, if_neg (by omega)]
  · rw [if_neg h, if_neg]
    rw [inb_iff] at h
    omega

theorem rowWord_replicate (v : Word) {y : Nat} (hy : y < 12) : rowWord (Vector.replicate 12 v) y = v := by
  simp [rowWord, hy]

theorem fbByte_replicate (v : Byte) {i : Nat} (hi : i < 24) : fbByte (Vector.replicate 24 v) i = v := by
  simp [fbByte, hi]

theorem pixel_fbZero (fb : Framebuffer) {x y : Nat} (hx : x < 16) (hy : y < 12) : (fbZero fb).pixel x y = false := by
  cases fb with
  | gpio w => simp [fbZero, Framebuffer.pixel, rowWord_replicate _ hy]
  | spi b =>
    simp only [fbZero, Framebuffer.pixel, pixelIndex_div x y hx]
    rw [fbByte_replicate _ (by omega)]
    simp

/-- The padding is 0 exactly when the bits of columns 12 to 15 are (rules R27, R28). -/
theorem Framebuffer.paddingZero_iff (fb : Framebuffer) :
    fb.paddingZero = true ↔ ∀ x y : Nat, 12 ≤ x → x < 16 → y < 12 → fb.pixel x y = false := by
  cases fb with
  | gpio w =>
    simp only [Framebuffer.paddingZero, Framebuffer.pixel, List.all_eq_true, List.mem_range, beq_iff_eq]
    constructor
    · intro h x y hx hx' hy
      have := congrArg (fun v => v.getLsbD (15 - x)) (h y hy)
      simpa [BitVec.getLsbD_extractLsb', show 15 - x < 4 by omega] using this
    · intro h y hy
      apply BitVec.eq_of_getLsbD_eq
      intro i hi
      have := h (15 - i) y (by omega) (by omega) hy
      rw [show 15 - (15 - i) = i by omega] at this
      simp [hi, this]
  | spi b =>
    simp only [Framebuffer.paddingZero, Framebuffer.pixel, List.all_eq_true, List.mem_range, beq_iff_eq]
    constructor
    · intro h x y hx hx' hy
      have h0 := congrArg (fun v => v.getLsbD (15 - x)) (h y hy)
      rw [pixelIndex_div x y hx', pixelIndex_mod, show 2 * y + x / 8 = 2 * y + 1 by omega,
        show bitpos (x % 8) = 4 + (15 - x) by unfold bitpos; omega]
      simpa [BitVec.getLsbD_extractLsb', show 15 - x < 4 by omega] using h0
    · intro h y hy
      apply BitVec.eq_of_getLsbD_eq
      intro i hi
      have h0 := h (15 - i) y (by omega) (by omega) hy
      rw [pixelIndex_div _ y (by omega), pixelIndex_mod, show 2 * y + (15 - i) / 8 = 2 * y + 1 by omega,
        show bitpos ((15 - i) % 8) = 4 + i by unfold bitpos; omega] at h0
      simp [hi, h0]

/-! ### Bits gathered into a word, as the layout converters do -/

/-- A bit of the gathered word is set where it was set before or where some listed item sets it. -/
theorem getLsbD_gather {α : Type} {n : Nat} (c b : α → Bool) (pos : α → Nat) (l : List α) (acc : BitVec n) {k : Nat}
    (hk : k < n) :
    (l.foldl (fun w a => if c a then w ||| ((if b a then (1 : BitVec n) else 0) <<< pos a) else w) acc).getLsbD k =
      (acc.getLsbD k || l.any fun a => c a && b a && decide (pos a = k)) := by
  induction l generalizing acc with
  | nil => simp
  | cons a rest ih =>
    rw [List.foldl_cons, ih, List.any_cons, ← Bool.or_assoc]
    congr 1
    cases hc : c a
    · simp
    · cases hb : b a
      · simp
      · simp only [if_true, BitVec.getLsbD_or, BitVec.getLsbD_shiftLeft, hk, decide_true, Bool.true_and]
        congr 1
        by_cases h : pos a = k
        · subst h
          simp
          omega
        · rw [decide_eq_false h]
          by_cases h2 : k < pos a
          · simp [h2]
          · simp only [h2, decide_false, Bool.not_false, Bool.true_and]
            simp
            omega

/-- Two nested folds are one fold over the pairs. -/
theorem foldl_foldl_eq_foldl_pairs {α β γ : Type} (f : γ → α → β → γ) (l : List α) (m : List β) (acc : γ) :
    l.foldl (fun a y => m.foldl (fun w x => f w y x) a) acc =
      (l.flatMap fun y => m.map fun x => (y, x)).foldl (fun w c => f w c.1 c.2) acc := by
  induction l generalizing acc with
  | nil => rfl
  | cons y rest ih => rw [List.foldl_cons, ih, List.flatMap_cons, List.foldl_append, List.foldl_map]

end Sys2Proof.Machine
end

