-- ==== Sys2Proof/Laws/Font.lean ====
section
/-! SUPPORT. What the lookup finds, what a glyph and a text light, and what a text measures. -/

namespace Sys2Proof.Machine

/-! ### Advances -/

/-- The advance is the value of the low 4 bits of byte 15 (rule R192). -/
theorem glyphAdvance_eq (font : List Glyph) (g : Nat) : glyphAdvance font g = (romByte font g 15).toNat % 16 := by
  unfold glyphAdvance
  rw [BitVec.toNat_and]
  exact Nat.and_two_pow_sub_one_eq_mod _ 4

theorem advanceOf_le (font : List Glyph) (c : CodePoint) : advanceOf font c ≤ 15 := by
  unfold advanceOf
  split
  · omega
  · omega

theorem sum_advances_le (font : List Glyph) (text : List CodePoint) :
    (text.map (advanceOf font)).sum ≤ 15 * text.length := by
  induction text with
  | nil => simp
  | cons c rest ih =>
    have := advanceOf_le font c
    simp only [List.map_cons, List.sum_cons, List.length_cons]
    omega

theorem advanceBefore_eq (s : State) (k : Nat) :
    advanceBefore s k = (((List.range k).map (TextBuffer.read s.txt)).map (advanceOf s.cfg.font)).sum := by
  simp [advanceBefore, List.map_map, Function.comp_def]

theorem advanceBefore_le (s : State) (k : Nat) : advanceBefore s k ≤ 15 * k := by
  rw [advanceBefore_eq]
  simpa using sum_advances_le s.cfg.font ((List.range k).map (TextBuffer.read s.txt))

/-! ### The rasterizer -/

theorem mem_glyphCells {c : Nat × Nat} : c ∈ glyphCells ↔ c.1 < 11 ∧ c.2 < 11 := by
  obtain ⟨gx, gy⟩ := c
  simp only [glyphCells, List.mem_flatMap, List.mem_map, List.mem_range, Prod.mk.injEq]
  constructor
  · rintro ⟨a, ha, b, hb, rfl, rfl⟩
    exact ⟨hb, ha⟩
  · rintro ⟨h1, h2⟩
    exact ⟨gy, h2, gx, h1, rfl, rfl⟩

/-- A fold of steps that each light some pixels lights the pixels that some step lights. -/
theorem foldl_pixel_lit {α : Type} {f : Framebuffer → α → Framebuffer} {lit : α → Prop} {x y : Nat}
    (hf : ∀ fb a, (f fb a).pixel x y = true ↔ fb.pixel x y = true ∨ lit a) (l : List α) (fb : Framebuffer) :
    (l.foldl f fb).pixel x y = true ↔ fb.pixel x y = true ∨ ∃ a ∈ l, lit a := by
  induction l generalizing fb with
  | nil => simp
  | cons a rest ih =>
    rw [List.foldl_cons, ih, hf]
    simp only [List.mem_cons, exists_eq_or_imp, or_assoc]

/-- What DrawGlyph lights: the pixels that the glyph's lit pixels go to, and it changes no other bit (rule R195). -/
theorem pixel_drawGlyph (font : List Glyph) (x0 y0 : Int) (g : Nat) (fb : Framebuffer) {x y : Nat} (hx : x < 16)
    (hy : y < 12) :
    (drawGlyph font x0 y0 g fb).pixel x y = true ↔ fb.pixel x y = true ∨ GlyphLights font g x0 y0 x y := by
  unfold drawGlyph
  rw [foldl_pixel_lit (lit := fun c => glyphPix font g c.1 c.2 = true ∧ x < 12 ∧ (x : Int) = y0 + c.2 ∧ (y : Int) = x0 + c.1)]
  · apply or_congr_right
    constructor
    · rintro ⟨⟨gx, gy⟩, hm, hp, h1, h2, h3⟩
      exact ⟨h1, hy, gx, gy, (mem_glyphCells.mp hm).1, (mem_glyphCells.mp hm).2, h2, h3, hp⟩
    · rintro ⟨h1, -, gx, gy, hgx, hgy, h2, h3, hp⟩
      exact ⟨(gx, gy), mem_glyphCells.mpr ⟨hgx, hgy⟩, hp, h1, h2, h3⟩
  · rintro fb ⟨gx, gy⟩
    by_cases hp : glyphPix font g gx gy = true
    · simp only [hp, if_true, true_and]
      rw [pixel_fbSet _ _ _ _ hx hy]
      by_cases hc : x < 12 ∧ (x : Int) = y0 + gy ∧ (y : Int) = x0 + gx
      · simp [hc]
      · simp [hc]
    · simp [hp]

@[simp] theorem backend_drawGlyph (font : List Glyph) (x0 y0 : Int) (g : Nat) (fb : Framebuffer) :
    (drawGlyph font x0 y0 g fb).backend = fb.backend := by
  unfold drawGlyph
  generalize glyphCells = l
  induction l generalizing fb with
  | nil => rfl
  | cons c rest ih =>
    rw [List.foldl_cons, ih]
    split <;> simp

/-! ### The text traversal -/

theorem walkStep_cx (font : List Glyph) (y0 : Int) (d : Bool) (k : Walk) (c : CodePoint) :
    (walkStep font y0 d k c).cx = k.cx + advanceOf font c := by
  unfold walkStep advanceOf
  split <;> simp_all [glyphAdvance_eq]

theorem walkStep_w (font : List Glyph) (y0 : Int) (d : Bool) (k : Walk) (c : CodePoint) :
    (walkStep font y0 d k c).w = k.w + advanceOf font c := by
  unfold walkStep advanceOf
  split <;> simp_all [glyphAdvance_eq]

theorem walkStep_backend (font : List Glyph) (y0 : Int) (d : Bool) (k : Walk) (c : CodePoint) :
    (walkStep font y0 d k c).fb.backend = k.fb.backend := by
  unfold walkStep
  split
  · cases d <;> simp
  · rfl

theorem walk_w (font : List Glyph) (y0 : Int) (d : Bool) (text : List CodePoint) (k : Walk) :
    (text.foldl (walkStep font y0 d) k).w = k.w + (text.map (advanceOf font)).sum := by
  induction text generalizing k with
  | nil => simp
  | cons c rest ih =>
    rw [List.foldl_cons, ih, walkStep_w, List.map_cons, List.sum_cons, Nat.add_assoc]

theorem walk_cx (font : List Glyph) (y0 : Int) (d : Bool) (text : List CodePoint) (k : Walk) :
    (text.foldl (walkStep font y0 d) k).cx = k.cx + ((text.map (advanceOf font)).sum : Nat) := by
  induction text generalizing k with
  | nil => simp
  | cons c rest ih =>
    rw [List.foldl_cons, ih, walkStep_cx, List.map_cons, List.sum_cons]
    push_cast
    omega

theorem walk_backend (font : List Glyph) (y0 : Int) (d : Bool) (text : List CodePoint) (k : Walk) :
    (text.foldl (walkStep font y0 d) k).fb.backend = k.fb.backend := by
  induction text generalizing k with
  | nil => rfl
  | cons c rest ih => rw [List.foldl_cons, ih, walkStep_backend]

/-- WIDTH's traversal touches no framebuffer (rule R203). -/
theorem walk_fb_of_not_draw (font : List Glyph) (y0 : Int) (text : List CodePoint) (k : Walk) :
    (text.foldl (walkStep font y0 false) k).fb = k.fb := by
  induction text generalizing k with
  | nil => rfl
  | cons c rest ih =>
    rw [List.foldl_cons, ih]
    unfold walkStep
    split <;> rfl

/-- What a text lights: each glyph found, at the cursor that the advances before it give (rule R196). -/
theorem pixel_walk (font : List Glyph) (y0 : Int) (text : List CodePoint) (k : Walk) {x y : Nat} (hx : x < 16)
    (hy : y < 12) :
    (text.foldl (walkStep font y0 true) k).fb.pixel x y = true ↔
      k.fb.pixel x y = true ∨ ∃ j g, ∃ h : j < text.length, find font text[j] = some g ∧
        GlyphLights font g (k.cx + (((text.take j).map (advanceOf font)).sum : Nat)) y0 x y := by
  induction text generalizing k with
  | nil => simp
  | cons c rest ih =>
    rw [List.foldl_cons, ih, walkStep_cx]
    have hfirst : (walkStep font y0 true k c).fb.pixel x y = true ↔
        k.fb.pixel x y = true ∨ ∃ g, find font c = some g ∧ GlyphLights font g k.cx y0 x y := by
      unfold walkStep
      cases hf : find font c with
      | none => simp
      | some g => simp [pixel_drawGlyph _ _ _ _ _ hx hy]
    rw [hfirst, or_assoc]
    apply or_congr_right
    constructor
    · rintro (⟨g, hg, hl⟩ | ⟨j, g, hj, hg, hl⟩)
      · exact ⟨0, g, by simp, hg, by simpa using hl⟩
      · refine ⟨j + 1, g, by simpa using hj, hg, ?_⟩
        rw [List.take_succ_cons, List.map_cons, List.sum_cons]
        rw [Nat.cast_add, ← Int.add_assoc]
        exact hl
    · rintro ⟨j, g, hj, hg, hl⟩
      cases j with
      | zero => exact .inl ⟨g, hg, by simpa using hl⟩
      | succ j =>
        refine .inr ⟨j, g, by simpa using hj, hg, ?_⟩
        rw [List.take_succ_cons, List.map_cons, List.sum_cons] at hl
        rw [Nat.cast_add, ← Int.add_assoc] at hl
        exact hl

/-! ### The lookup -/

theorem zext21_toNat (k : BitVec 16) : (k.zeroExtend 21 : CodePoint).toNat = k.toNat := by
  simp only [BitVec.toNat_setWidth]
  exact Nat.mod_eq_of_lt (by have := k.isLt; omega)

theorem romCode_eq {font : List Glyph} {g : Nat} {r : Glyph} (h : font[g]? = some r) : romCode font g = r.code := by
  simp [romCode, h]

/-- The search over ascending codes, between bounds that hold the record, finds it (rule R194). -/
theorem searchLoop_found {font : List Glyph} {c : CodePoint} {g : Nat} {r : Glyph}
    (hs : (font.map Glyph.code).Pairwise (· < ·)) (hg : font[g]? = some r) (hc : r.code.toNat = c.toNat)
    {fuel lo hi : Nat} (hf : hi - lo ≤ fuel) (hlo : lo ≤ g) (hhi : g < hi) (hn : hi ≤ font.length) :
    searchLoop font c fuel lo hi = some g := by
  induction fuel generalizing lo hi with
  | zero => omega
  | succ fuel ih =>
    unfold searchLoop
    rw [if_pos (by omega)]
    have hm : (lo + hi) / 2 < font.length := by omega
    have hgl : g < font.length := by omega
    have hr : font[g] = r := by simpa [List.getElem?_eq_getElem hgl] using hg
    have hrom : romCode font ((lo + hi) / 2) = font[(lo + hi) / 2].code :=
      romCode_eq (List.getElem?_eq_getElem hm)
    have hasc : ∀ i j (hi : i < font.length) (hj : j < font.length), i < j → font[i].code < font[j].code := by
      intro i j hi hj hij
      have := List.pairwise_iff_getElem.mp hs i j (by simpa using hi) (by simpa using hj) hij
      simpa using this
    simp only [hrom]
    rcases Nat.lt_trichotomy ((lo + hi) / 2) g with hlt | heq | hgt
    · have h1 := hasc _ _ hm hgl hlt
      rw [hr, BitVec.lt_def, hc] at h1
      rw [if_neg, if_pos]
      · exact ih (by omega) (by omega) hhi hn
      · rw [BitVec.lt_def, zext21_toNat]; exact h1
      · intro he
        have := congrArg BitVec.toNat he
        rw [zext21_toNat] at this
        omega
    · rw [if_pos]
      · rw [heq]
      · apply BitVec.eq_of_toNat_eq
        rw [zext21_toNat, ← hc, ← hr]
        simp only [heq]
    · have h1 := hasc _ _ hgl hm hgt
      rw [hr, BitVec.lt_def, hc] at h1
      rw [if_neg, if_neg]
      · exact ih (by omega) hlo (by omega) (by omega)
      · rw [BitVec.lt_def, zext21_toNat]; omega
      · intro he
        have := congrArg BitVec.toNat he
        rw [zext21_toNat] at this
        omega

/-- What the search returns is the index of a record with that code, for any font (rule R193). -/
theorem searchLoop_sound {font : List Glyph} {c : CodePoint} {g : Nat} {fuel lo hi : Nat} (hn : hi ≤ font.length)
    (h : searchLoop font c fuel lo hi = some g) : ∃ r, font[g]? = some r ∧ r.code.toNat = c.toNat := by
  induction fuel generalizing lo hi with
  | zero => simp [searchLoop] at h
  | succ fuel ih =>
    unfold searchLoop at h
    split at h
    · next hlt =>
      have hm : (lo + hi) / 2 < font.length := by omega
      simp only [romCode_eq (List.getElem?_eq_getElem hm)] at h
      split at h
      · next he =>
        injection h with h
        subst h
        refine ⟨_, List.getElem?_eq_getElem hm, ?_⟩
        rw [← he, zext21_toNat]
      · split at h
        · exact ih hn h
        · exact ih (by omega) h
    · cases h

theorem find_sound {font : List Glyph} {c : CodePoint} {g : Nat} (h : find font c = some g) :
    ∃ r, font[g]? = some r ∧ r.code.toNat = c.toNat :=
  searchLoop_sound (Nat.le_refl _) h

theorem find_of_record {font : List Glyph} {c : CodePoint} {g : Nat} {r : Glyph}
    (hs : (font.map Glyph.code).Pairwise (· < ·)) (hg : font[g]? = some r) (hc : r.code.toNat = c.toNat) :
    find font c = some g := by
  have hgl : g < font.length := (List.getElem?_eq_some_iff.mp hg).1
  exact searchLoop_found hs hg hc (by omega) (Nat.zero_le _) hgl (Nat.le_refl _)

theorem find_of_no_record {font : List Glyph} {c : CodePoint} (h : ∀ r ∈ font, r.code.toNat ≠ c.toNat) :
    find font c = none := by
  cases hf : find font c with
  | none => rfl
  | some g =>
    obtain ⟨r, hg, hc⟩ := find_sound hf
    exact absurd hc (h r (List.mem_of_getElem? hg))

/-- The check of rule R8 on FONT says that its codes are strictly ascending. -/
theorem fontAscending_iff (font : List Glyph) :
    Config.fontAscending font = true ↔ (font.map Glyph.code).Pairwise (· < ·) := by
  induction font with
  | nil => simp [Config.fontAscending]
  | cons a rest ih =>
    cases rest with
    | nil => simp [Config.fontAscending]
    | cons b rest =>
      simp only [Config.fontAscending, Bool.and_eq_true, decide_eq_true_eq, ih]
      simp only [List.map_cons, List.pairwise_cons, List.mem_cons, forall_eq_or_imp]
      constructor
      · rintro ⟨h1, h2, h3⟩
        exact ⟨⟨h1, fun x hx => BitVec.lt_trans h1 (h2 x hx)⟩, h2, h3⟩
      · rintro ⟨⟨h1, -⟩, h2, h3⟩
        exact ⟨h1, h2, h3⟩

end Sys2Proof.Machine
end

