-- ==== Sys2Proof/Laws/State.lean ====
section
/-! SUPPORT. One lemma for each field and each named update of State. -/

namespace Sys2Proof.Machine

/-! ### Raising a fault (rule R222) -/

@[simp] theorem raiseFault_cfg (c : FaultCode) (s : State) : (raiseFault c s).cfg = s.cfg := rfl

@[simp] theorem raiseFault_opr (c : FaultCode) (s : State) : (raiseFault c s).opr = s.opr := rfl

@[simp] theorem raiseFault_argA (c : FaultCode) (s : State) : (raiseFault c s).argA = s.argA := rfl

@[simp] theorem raiseFault_argB (c : FaultCode) (s : State) : (raiseFault c s).argB = s.argB := rfl

@[simp] theorem raiseFault_argV (c : FaultCode) (s : State) : (raiseFault c s).argV = s.argV := rfl

@[simp] theorem raiseFault_argC (c : FaultCode) (s : State) : (raiseFault c s).argC = s.argC := rfl

@[simp] theorem raiseFault_txt (c : FaultCode) (s : State) : (raiseFault c s).txt = s.txt := rfl

@[simp] theorem raiseFault_txtLen (c : FaultCode) (s : State) : (raiseFault c s).txtLen = s.txtLen := rfl

@[simp] theorem raiseFault_resFlag (c : FaultCode) (s : State) : (raiseFault c s).resFlag = s.resFlag := rfl

@[simp] theorem raiseFault_resVal (c : FaultCode) (s : State) : (raiseFault c s).resVal = s.resVal := rfl

@[simp] theorem raiseFault_busy (c : FaultCode) (s : State) : (raiseFault c s).busy = s.busy := rfl

@[simp] theorem raiseFault_ready (c : FaultCode) (s : State) : (raiseFault c s).ready = s.ready := rfl

@[simp] theorem raiseFault_fault (c : FaultCode) (s : State) : (raiseFault c s).fault = c := rfl

@[simp] theorem raiseFault_fb (c : FaultCode) (s : State) : (raiseFault c s).fb = s.fb := rfl

@[simp] theorem raiseFault_lines (c : FaultCode) (s : State) : (raiseFault c s).lines = s.lines := rfl

@[simp] theorem raiseFault_trace (c : FaultCode) (s : State) : (raiseFault c s).trace = s.trace := rfl

@[simp] theorem raiseFault_pending (c : FaultCode) (s : State) : (raiseFault c s).pending = s.pending := rfl

@[simp] theorem raiseFault_closing (c : FaultCode) (s : State) : (raiseFault c s).closing = s.closing := rfl

@[simp] theorem raiseFault_pace (c : FaultCode) (s : State) : (raiseFault c s).pace = s.pace := rfl

@[simp] theorem raiseFault_inputs (c : FaultCode) (s : State) : (raiseFault c s).inputs = s.inputs := rfl

@[simp] theorem raiseFault_resets (c : FaultCode) (s : State) : (raiseFault c s).resets = s.resets := rfl

@[simp] theorem raiseFault_resetMark (c : FaultCode) (s : State) : (raiseFault c s).resetMark = s.resetMark := rfl

/-! ### Events the transport accepts (rule R34) -/

@[simp] theorem State.emit_cfg (s : State) (es : List Event) : (s.emit es).cfg = s.cfg := rfl

@[simp] theorem State.emit_opr (s : State) (es : List Event) : (s.emit es).opr = s.opr := rfl

@[simp] theorem State.emit_argA (s : State) (es : List Event) : (s.emit es).argA = s.argA := rfl

@[simp] theorem State.emit_argB (s : State) (es : List Event) : (s.emit es).argB = s.argB := rfl

@[simp] theorem State.emit_argV (s : State) (es : List Event) : (s.emit es).argV = s.argV := rfl

@[simp] theorem State.emit_argC (s : State) (es : List Event) : (s.emit es).argC = s.argC := rfl

@[simp] theorem State.emit_txt (s : State) (es : List Event) : (s.emit es).txt = s.txt := rfl

@[simp] theorem State.emit_txtLen (s : State) (es : List Event) : (s.emit es).txtLen = s.txtLen := rfl

@[simp] theorem State.emit_resFlag (s : State) (es : List Event) : (s.emit es).resFlag = s.resFlag := rfl

@[simp] theorem State.emit_resVal (s : State) (es : List Event) : (s.emit es).resVal = s.resVal := rfl

@[simp] theorem State.emit_busy (s : State) (es : List Event) : (s.emit es).busy = s.busy := rfl

@[simp] theorem State.emit_ready (s : State) (es : List Event) : (s.emit es).ready = s.ready := rfl

@[simp] theorem State.emit_fault (s : State) (es : List Event) : (s.emit es).fault = s.fault := rfl

@[simp] theorem State.emit_fb (s : State) (es : List Event) : (s.emit es).fb = s.fb := rfl

@[simp] theorem State.emit_lines (s : State) (es : List Event) : (s.emit es).lines = es.foldl Lines.after s.lines := rfl

@[simp] theorem State.emit_trace (s : State) (es : List Event) : (s.emit es).trace = s.trace ++ es := rfl

@[simp] theorem State.emit_pending (s : State) (es : List Event) : (s.emit es).pending = s.pending := rfl

@[simp] theorem State.emit_closing (s : State) (es : List Event) : (s.emit es).closing = s.closing := rfl

@[simp] theorem State.emit_pace (s : State) (es : List Event) : (s.emit es).pace = s.pace := rfl

@[simp] theorem State.emit_inputs (s : State) (es : List Event) : (s.emit es).inputs = s.inputs := rfl

@[simp] theorem State.emit_resets (s : State) (es : List Event) : (s.emit es).resets = s.resets := rfl

@[simp] theorem State.emit_resetMark (s : State) (es : List Event) : (s.emit es).resetMark = s.resetMark := rfl

/-! ### The reset input (rule R250) -/

@[simp] theorem applyReset_cfg (s : State) : (applyReset s).cfg = s.cfg := rfl

@[simp] theorem applyReset_opr (s : State) : (applyReset s).opr = 0 := rfl

@[simp] theorem applyReset_argA (s : State) : (applyReset s).argA = 0 := rfl

@[simp] theorem applyReset_argB (s : State) : (applyReset s).argB = 0 := rfl

@[simp] theorem applyReset_argV (s : State) : (applyReset s).argV = false := rfl

@[simp] theorem applyReset_argC (s : State) : (applyReset s).argC = 0 := rfl

@[simp] theorem applyReset_txt (s : State) : (applyReset s).txt = [] := rfl

@[simp] theorem applyReset_txtLen (s : State) : (applyReset s).txtLen = 0 := rfl

@[simp] theorem applyReset_resFlag (s : State) : (applyReset s).resFlag = false := rfl

@[simp] theorem applyReset_resVal (s : State) : (applyReset s).resVal = 0 := rfl

@[simp] theorem applyReset_busy (s : State) : (applyReset s).busy = false := rfl

@[simp] theorem applyReset_ready (s : State) : (applyReset s).ready = false := rfl

@[simp] theorem applyReset_fault (s : State) : (applyReset s).fault = .none := rfl

@[simp] theorem applyReset_fb (s : State) : (applyReset s).fb = fbUnspecified s.fb s.resets := rfl

@[simp] theorem applyReset_lines (s : State) : (applyReset s).lines = Lines.atReset := rfl

@[simp] theorem applyReset_trace (s : State) : (applyReset s).trace = s.trace ++ resetEvents s.resets s.lines := rfl

@[simp] theorem applyReset_pending (s : State) : (applyReset s).pending = [] := rfl

@[simp] theorem applyReset_closing (s : State) : (applyReset s).closing = .nothing := rfl

@[simp] theorem applyReset_pace (s : State) : (applyReset s).pace = s.pace := rfl

@[simp] theorem applyReset_inputs (s : State) : (applyReset s).inputs = s.inputs := rfl

@[simp] theorem applyReset_resets (s : State) : (applyReset s).resets = s.resets + 1 := rfl

@[simp] theorem applyReset_resetMark (s : State) :
    (applyReset s).resetMark = s.trace.length + (resetEvents s.resets s.lines).length := rfl

/-! ### The host's next request byte -/

@[simp] theorem withRequestByte_cfg (v : Byte) (s : State) : (withRequestByte v s).cfg = s.cfg := rfl

@[simp] theorem withRequestByte_opr (v : Byte) (s : State) : (withRequestByte v s).opr = s.opr := rfl

@[simp] theorem withRequestByte_argA (v : Byte) (s : State) : (withRequestByte v s).argA = s.argA := rfl

@[simp] theorem withRequestByte_argB (v : Byte) (s : State) : (withRequestByte v s).argB = s.argB := rfl

@[simp] theorem withRequestByte_argV (v : Byte) (s : State) : (withRequestByte v s).argV = s.argV := rfl

@[simp] theorem withRequestByte_argC (v : Byte) (s : State) : (withRequestByte v s).argC = s.argC := rfl

@[simp] theorem withRequestByte_txt (v : Byte) (s : State) : (withRequestByte v s).txt = s.txt := rfl

@[simp] theorem withRequestByte_txtLen (v : Byte) (s : State) : (withRequestByte v s).txtLen = s.txtLen := rfl

@[simp] theorem withRequestByte_resFlag (v : Byte) (s : State) : (withRequestByte v s).resFlag = s.resFlag := rfl

@[simp] theorem withRequestByte_resVal (v : Byte) (s : State) : (withRequestByte v s).resVal = s.resVal := rfl

@[simp] theorem withRequestByte_busy (v : Byte) (s : State) : (withRequestByte v s).busy = s.busy := rfl

@[simp] theorem withRequestByte_ready (v : Byte) (s : State) : (withRequestByte v s).ready = s.ready := rfl

@[simp] theorem withRequestByte_fault (v : Byte) (s : State) : (withRequestByte v s).fault = s.fault := rfl

@[simp] theorem withRequestByte_fb (v : Byte) (s : State) : (withRequestByte v s).fb = s.fb := rfl

@[simp] theorem withRequestByte_lines (v : Byte) (s : State) : (withRequestByte v s).lines = s.lines := rfl

@[simp] theorem withRequestByte_trace (v : Byte) (s : State) : (withRequestByte v s).trace = s.trace := rfl

@[simp] theorem withRequestByte_pending (v : Byte) (s : State) : (withRequestByte v s).pending = s.pending := rfl

@[simp] theorem withRequestByte_closing (v : Byte) (s : State) : (withRequestByte v s).closing = s.closing := rfl

@[simp] theorem withRequestByte_pace (v : Byte) (s : State) : (withRequestByte v s).pace = s.pace := rfl

@[simp] theorem withRequestByte_inputs (v : Byte) (s : State) : (withRequestByte v s).inputs = .write (.opr v) :: s.inputs := rfl

@[simp] theorem withRequestByte_resets (v : Byte) (s : State) : (withRequestByte v s).resets = s.resets := rfl

@[simp] theorem withRequestByte_resetMark (v : Byte) (s : State) : (withRequestByte v s).resetMark = s.resetMark := rfl

/-! ### The end of a request (rule R170) -/

@[simp] theorem State.finish_cfg (s : State) : s.finish.cfg = s.cfg := by unfold State.finish; cases s.closing <;> rfl

@[simp] theorem State.finish_opr (s : State) : s.finish.opr = s.opr := by unfold State.finish; cases s.closing <;> rfl

@[simp] theorem State.finish_argA (s : State) : s.finish.argA = s.argA := by unfold State.finish; cases s.closing <;> rfl

@[simp] theorem State.finish_argB (s : State) : s.finish.argB = s.argB := by unfold State.finish; cases s.closing <;> rfl

@[simp] theorem State.finish_argV (s : State) : s.finish.argV = s.argV := by unfold State.finish; cases s.closing <;> rfl

@[simp] theorem State.finish_argC (s : State) : s.finish.argC = s.argC := by unfold State.finish; cases s.closing <;> rfl

@[simp] theorem State.finish_txt (s : State) : s.finish.txt = s.txt := by unfold State.finish; cases s.closing <;> rfl

@[simp] theorem State.finish_txtLen (s : State) : s.finish.txtLen = s.txtLen := by unfold State.finish; cases s.closing <;> rfl

@[simp] theorem State.finish_resFlag (s : State) : s.finish.resFlag = s.resFlag := by unfold State.finish; cases s.closing <;> rfl

@[simp] theorem State.finish_resVal (s : State) : s.finish.resVal = s.resVal := by unfold State.finish; cases s.closing <;> rfl

@[simp] theorem State.finish_fault (s : State) : s.finish.fault = s.fault := by unfold State.finish; cases s.closing <;> rfl

@[simp] theorem State.finish_lines (s : State) : s.finish.lines = s.lines := by unfold State.finish; cases s.closing <;> rfl

@[simp] theorem State.finish_trace (s : State) : s.finish.trace = s.trace := by unfold State.finish; cases s.closing <;> rfl

@[simp] theorem State.finish_pace (s : State) : s.finish.pace = s.pace := by unfold State.finish; cases s.closing <;> rfl

@[simp] theorem State.finish_inputs (s : State) : s.finish.inputs = s.inputs := by unfold State.finish; cases s.closing <;> rfl

@[simp] theorem State.finish_resets (s : State) : s.finish.resets = s.resets := by unfold State.finish; cases s.closing <;> rfl

@[simp] theorem State.finish_resetMark (s : State) : s.finish.resetMark = s.resetMark := by unfold State.finish; cases s.closing <;> rfl

@[simp] theorem State.finish_pending (s : State) : s.finish.pending = [] := by unfold State.finish; cases s.closing <;> rfl

@[simp] theorem State.finish_busy (s : State) : s.finish.busy = false := by unfold State.finish; cases s.closing <;> rfl

@[simp] theorem State.finish_closing (s : State) : s.finish.closing = .nothing := by
  unfold State.finish; cases s.closing <;> simp

/-! ### The encoder goes on (rules R36, R146) -/

@[simp] theorem State.proceed_cfg (s : State) : s.proceed.cfg = s.cfg := by
  unfold State.proceed; repeat' split
  all_goals simp

@[simp] theorem State.launch_cfg (es : List Event) (c : Closing) (s : State) : (State.launch es c s).cfg = s.cfg := by
  simp [State.launch]

@[simp] theorem State.proceed_opr (s : State) : s.proceed.opr = s.opr := by
  unfold State.proceed; repeat' split
  all_goals simp

@[simp] theorem State.launch_opr (es : List Event) (c : Closing) (s : State) : (State.launch es c s).opr = s.opr := by
  simp [State.launch]

@[simp] theorem State.proceed_argA (s : State) : s.proceed.argA = s.argA := by
  unfold State.proceed; repeat' split
  all_goals simp

@[simp] theorem State.launch_argA (es : List Event) (c : Closing) (s : State) : (State.launch es c s).argA = s.argA := by
  simp [State.launch]

@[simp] theorem State.proceed_argB (s : State) : s.proceed.argB = s.argB := by
  unfold State.proceed; repeat' split
  all_goals simp

@[simp] theorem State.launch_argB (es : List Event) (c : Closing) (s : State) : (State.launch es c s).argB = s.argB := by
  simp [State.launch]

@[simp] theorem State.proceed_argV (s : State) : s.proceed.argV = s.argV := by
  unfold State.proceed; repeat' split
  all_goals simp

@[simp] theorem State.launch_argV (es : List Event) (c : Closing) (s : State) : (State.launch es c s).argV = s.argV := by
  simp [State.launch]

@[simp] theorem State.proceed_argC (s : State) : s.proceed.argC = s.argC := by
  unfold State.proceed; repeat' split
  all_goals simp

@[simp] theorem State.launch_argC (es : List Event) (c : Closing) (s : State) : (State.launch es c s).argC = s.argC := by
  simp [State.launch]

@[simp] theorem State.proceed_txt (s : State) : s.proceed.txt = s.txt := by
  unfold State.proceed; repeat' split
  all_goals simp

@[simp] theorem State.launch_txt (es : List Event) (c : Closing) (s : State) : (State.launch es c s).txt = s.txt := by
  simp [State.launch]

@[simp] theorem State.proceed_txtLen (s : State) : s.proceed.txtLen = s.txtLen := by
  unfold State.proceed; repeat' split
  all_goals simp

@[simp] theorem State.launch_txtLen (es : List Event) (c : Closing) (s : State) : (State.launch es c s).txtLen = s.txtLen := by
  simp [State.launch]

@[simp] theorem State.proceed_resFlag (s : State) : s.proceed.resFlag = s.resFlag := by
  unfold State.proceed; repeat' split
  all_goals simp

@[simp] theorem State.launch_resFlag (es : List Event) (c : Closing) (s : State) : (State.launch es c s).resFlag = s.resFlag := by
  simp [State.launch]

@[simp] theorem State.proceed_resVal (s : State) : s.proceed.resVal = s.resVal := by
  unfold State.proceed; repeat' split
  all_goals simp

@[simp] theorem State.launch_resVal (es : List Event) (c : Closing) (s : State) : (State.launch es c s).resVal = s.resVal := by
  simp [State.launch]

@[simp] theorem State.proceed_fault (s : State) : s.proceed.fault = s.fault := by
  unfold State.proceed; repeat' split
  all_goals simp

@[simp] theorem State.launch_fault (es : List Event) (c : Closing) (s : State) : (State.launch es c s).fault = s.fault := by
  simp [State.launch]

@[simp] theorem State.proceed_inputs (s : State) : s.proceed.inputs = s.inputs := by
  unfold State.proceed; repeat' split
  all_goals simp

@[simp] theorem State.launch_inputs (es : List Event) (c : Closing) (s : State) : (State.launch es c s).inputs = s.inputs := by
  simp [State.launch]

@[simp] theorem State.proceed_resets (s : State) : s.proceed.resets = s.resets := by
  unfold State.proceed; repeat' split
  all_goals simp

@[simp] theorem State.proceed_resetMark (s : State) : s.proceed.resetMark = s.resetMark := by
  unfold State.proceed; repeat' split
  all_goals simp

@[simp] theorem State.launch_resets (es : List Event) (c : Closing) (s : State) : (State.launch es c s).resets = s.resets := by
  simp [State.launch]

@[simp] theorem State.launch_resetMark (es : List Event) (c : Closing) (s : State) : (State.launch es c s).resetMark = s.resetMark := by
  simp [State.launch]

/-! ### A step without input (rules R21, R228) -/

@[simp] theorem State.elapse_cfg (s : State) : s.elapse.cfg = s.cfg := by unfold State.elapse; split <;> simp

@[simp] theorem State.elapse_opr (s : State) : s.elapse.opr = s.opr := by unfold State.elapse; split <;> simp

@[simp] theorem State.elapse_argA (s : State) : s.elapse.argA = s.argA := by unfold State.elapse; split <;> simp

@[simp] theorem State.elapse_argB (s : State) : s.elapse.argB = s.argB := by unfold State.elapse; split <;> simp

@[simp] theorem State.elapse_argV (s : State) : s.elapse.argV = s.argV := by unfold State.elapse; split <;> simp

@[simp] theorem State.elapse_argC (s : State) : s.elapse.argC = s.argC := by unfold State.elapse; split <;> simp

@[simp] theorem State.elapse_txt (s : State) : s.elapse.txt = s.txt := by unfold State.elapse; split <;> simp

@[simp] theorem State.elapse_txtLen (s : State) : s.elapse.txtLen = s.txtLen := by unfold State.elapse; split <;> simp

@[simp] theorem State.elapse_resFlag (s : State) : s.elapse.resFlag = s.resFlag := by unfold State.elapse; split <;> simp

@[simp] theorem State.elapse_resVal (s : State) : s.elapse.resVal = s.resVal := by unfold State.elapse; split <;> simp

@[simp] theorem State.elapse_fault (s : State) : s.elapse.fault = s.fault := by unfold State.elapse; split <;> simp

@[simp] theorem State.elapse_lines (s : State) : s.elapse.lines = s.lines := by unfold State.elapse; split <;> simp

@[simp] theorem State.elapse_trace (s : State) : s.elapse.trace = s.trace := by unfold State.elapse; split <;> simp

@[simp] theorem State.elapse_pace (s : State) : s.elapse.pace = s.pace := by unfold State.elapse; split <;> simp

@[simp] theorem State.elapse_inputs (s : State) : s.elapse.inputs = s.inputs := by unfold State.elapse; split <;> simp

@[simp] theorem State.elapse_resets (s : State) : s.elapse.resets = s.resets := by unfold State.elapse; split <;> simp

@[simp] theorem State.elapse_resetMark (s : State) : s.elapse.resetMark = s.resetMark := by unfold State.elapse; split <;> simp

@[simp] theorem State.elapse_pending (s : State) : s.elapse.pending = s.pending := by
  unfold State.elapse; split <;> simp_all

end Sys2Proof.Machine
end

