-- ==== Sys2Proof/Laws/Ops.lean ====
section
/-! SUPPORT. What each shared operation can do, said once: going on with a request, the checks of rule R221, a
request, one input, one step. -/

namespace Sys2Proof.Machine

/-! ### Going on with the request in flight -/

theorem State.proceed_of_idle {s : State} (h : s.busy = false) : s.proceed = s := by
  simp [State.proceed, h]

/-- Where the pace covers the events and the end, the request ends. -/
theorem State.proceed_of_covers {s : State} (hb : s.busy = true) (h : s.pace.Covers (s.pending.length + 1)) :
    s.proceed = { (s.emit s.pending).finish with pace := s.pace.spend (s.pending.length + 1) } := by
  unfold State.proceed
  cases hp : s.pace with
  | free =>
    simp only [hb, if_true, Pace.spend, ← hp]
    conv_lhs => rw [show (s.emit s.pending).finish = { (s.emit s.pending).finish with pace := (s.emit s.pending).finish.pace } from rfl]
    simp
  | units n =>
    have hn : s.pending.length < n := by simpa [Pace.Covers, hp] using h
    simp [hb, hn, Pace.spend]

/-- Where it does not, the encoder waits after as many events as the pace has units. -/
theorem State.proceed_of_short {s : State} {n : Nat} (hb : s.busy = true) (hp : s.pace = .units n)
    (h : n ≤ s.pending.length) :
    s.proceed = { s.emit (s.pending.take n) with pending := s.pending.drop n, pace := .units 0 } := by
  unfold State.proceed
  simp [hb, hp, Nat.not_lt.mpr h]

/-- The three things that going on can do. -/
theorem State.proceed_cases (s : State) :
    (s.busy = false ∧ s.proceed = s) ∨
    (s.busy = true ∧ s.pace.Covers (s.pending.length + 1) ∧
      s.proceed = { (s.emit s.pending).finish with pace := s.pace.spend (s.pending.length + 1) }) ∨
    (s.busy = true ∧ ∃ n, s.pace = .units n ∧ n ≤ s.pending.length ∧
      s.proceed = { s.emit (s.pending.take n) with pending := s.pending.drop n, pace := .units 0 }) := by
  cases hb : s.busy with
  | false => exact .inl ⟨rfl, State.proceed_of_idle hb⟩
  | true =>
    cases hp : s.pace with
    | free =>
      have hc : s.pace.Covers (s.pending.length + 1) := by simp [hp, Pace.Covers]
      exact .inr (.inl ⟨rfl, by simp [Pace.Covers], by rw [State.proceed_of_covers hb hc, hp]⟩)
    | units n =>
      by_cases h : s.pending.length < n
      · have hc : s.pace.Covers (s.pending.length + 1) := by simpa [hp, Pace.Covers] using h
        exact .inr (.inl ⟨rfl, by simpa [Pace.Covers] using h, by rw [State.proceed_of_covers hb hc, hp]⟩)
      · exact .inr (.inr ⟨rfl, n, rfl, by omega, State.proceed_of_short hb hp (by omega)⟩)

/-- A request without closing steps, under a pace that covers it. -/
theorem State.launch_nothing {s : State} {es : List Event} (h : s.pace.Covers (es.length + 1)) :
    State.launch es .nothing s =
      { s with busy := false, trace := s.trace ++ es, lines := es.foldl Lines.after s.lines, pending := [],
               closing := .nothing, pace := s.pace.spend (es.length + 1) } := by
  unfold State.launch
  rw [State.proceed_of_covers rfl h]
  rfl

/-- INIT's closing steps, under a pace that covers it. -/
theorem State.launch_zeroAndReady {s : State} {es : List Event} (h : s.pace.Covers (es.length + 1)) :
    State.launch es .zeroAndReady s =
      { s with busy := false, trace := s.trace ++ es, lines := es.foldl Lines.after s.lines, pending := [],
               closing := .nothing, pace := s.pace.spend (es.length + 1), fb := fbZero s.fb, ready := true } := by
  unfold State.launch
  rw [State.proceed_of_covers rfl h]
  rfl

/-! ### The checks of rule R221 -/

theorem hostWritable_of_fault {f : State → State} {s : State} (h : s.fault ≠ .none) : hostWritable f s = s := by
  simp [hostWritable, h]

theorem hostWritable_of_busy {f : State → State} {s : State} (h : s.fault = .none) (hb : s.busy = true) :
    hostWritable f s = raiseFault .busy s := by
  simp [hostWritable, h, hb]

theorem hostWritable_of_open {f : State → State} {s : State} (h : s.Open) : hostWritable f s = f s := by
  simp [hostWritable, h.1, h.2]

/-- What holds of the state before, of the state with F_BUSY raised and of what an open block does, holds after a host
write. -/
theorem hostWritable_keeps {f : State → State} {s : State} (P : State → Prop) (h0 : P s) (h1 : P (raiseFault .busy s))
    (h2 : s.Open → P (f s)) : P (hostWritable f s) := by
  by_cases hf : s.fault = .none
  · by_cases hb : s.busy = true
    · rw [hostWritable_of_busy hf hb]
      exact h1
    · have ho : s.Open := ⟨hf, by simpa using hb⟩
      rw [hostWritable_of_open ho]
      exact h2 ho
  · rw [hostWritable_of_fault hf]
    exact h0

theorem State.Accepting.toOpen {s : State} (h : s.Accepting) : s.Open := ⟨h.1, h.2.1⟩

/-! ### What each request does once it is accepted -/

/-- Check 5 or 6 of rule R221 for request i. -/
def requestCheck (i : Instr) : State → FaultCode :=
  match i with
  | .drawg => glyphIndexCheck
  | .text | .width => textLenCheck
  | _ => noCheck

/-- The framebuffer after the start of request i. -/
def requestFb (i : Instr) (s : State) : Framebuffer :=
  match i with
  | .set => fbSet s.fb s.operandA s.operandB s.argV
  | .fill => fbFill s.fb s.argV
  | .drawg => drawGlyph s.cfg.font s.operandA s.operandB s.operandIndex s.fb
  | .text => (textWalk s.cfg.font s.operandA s.operandB s.operandText true s.fb).fb
  | _ => s.fb

/-- RES_FLAG after the start of request i. -/
def requestFlag (i : Instr) (s : State) : Bool :=
  match i with
  | .get => fbGet s.fb s.operandA s.operandB
  | .find => (find s.cfg.font s.argC).isSome
  | _ => s.resFlag

/-- RES_VAL after the start of request i. -/
def requestVal (i : Instr) (s : State) : BitVec 32 :=
  match i with
  | .find => BitVec.ofNat 32 ((find s.cfg.font s.argC).getD 0)
  | .width => BitVec.ofNat 32 (textWalk s.cfg.font 0 0 s.operandText false s.fb).w
  | _ => s.resVal

/-- The events of request i. -/
def requestEvents (i : Instr) (s : State) : List Event :=
  match i with
  | .init => initEvents s.backend s.cfg
  | .flush => flushEvents s.fb
  | .bright => sendCmd s.backend (pwmByte s.operandA)
  | .cmdSysDis => sendCmd s.backend 0x00
  | .cmdSysEn => sendCmd s.backend 0x01
  | .cmdLedOff => sendCmd s.backend 0x02
  | .cmdLedOn => sendCmd s.backend 0x03
  | .cmdBlinkOff => sendCmd s.backend 0x08
  | .cmdBlinkOn => sendCmd s.backend 0x09
  | .cmdClkSlave => sendCmd s.backend 0x10
  | .cmdClkRc => sendCmd s.backend 0x18
  | .cmdClkExt => sendCmd s.backend 0x1C
  | .cmdComN8 => sendCmd s.backend 0x20
  | .cmdComN16 => sendCmd s.backend 0x24
  | .cmdComP8 => sendCmd s.backend 0x28
  | .cmdComP16 => sendCmd s.backend 0x2C
  | .set | .get | .fill | .find | .drawg | .text | .width => []

/-- What request i does after its last event. -/
def requestClosing (i : Instr) : Closing :=
  match i with
  | .init => .zeroAndReady
  | _ => .nothing

/-- Request i once every check has passed. -/
def requestRun (i : Instr) (s : State) : State :=
  State.launch (requestEvents i s) (requestClosing i)
    { s with fb := requestFb i s, resFlag := requestFlag i s, resVal := requestVal i s }

/-- Every meaning is an accepted request: it differs from the others in its check, its effect and its events only. -/
theorem exec_eq_acceptRequest (i : Instr) (s : State) :
    exec i s = acceptRequest i (i != .init) (requestCheck i) (requestRun i) s := by
  cases i <;> rfl

/-- The state that a request leads to. `exec` always answers a next state. -/
def execNext (i : Instr) (s : State) : State :=
  hostWritable (fun s =>
    let t := { s with opr := encode i }
    if (i != .init) && !t.ready then raiseFault .notInit t
    else if requestCheck i t ≠ .none then raiseFault (requestCheck i t) t
    else requestRun i t) s

theorem exec_eq_next (i : Instr) (s : State) : exec i s = .next (execNext i s) := exec_eq_acceptRequest i s

/-- The five things that a request can do. -/
theorem exec_cases {i : Instr} {s t : State} (h : exec i s = .next t) :
    (s.fault ≠ .none ∧ t = s) ∨
    (s.fault = .none ∧ s.busy = true ∧ t = raiseFault .busy s) ∨
    (s.Open ∧ i ≠ .init ∧ s.ready = false ∧ t = raiseFault .notInit { s with opr := encode i }) ∨
    (s.Open ∧ (i ≠ .init → s.ready = true) ∧ requestCheck i { s with opr := encode i } ≠ .none ∧
      t = raiseFault (requestCheck i { s with opr := encode i }) { s with opr := encode i }) ∨
    (s.Open ∧ (i ≠ .init → s.ready = true) ∧ requestCheck i { s with opr := encode i } = .none ∧
      t = requestRun i { s with opr := encode i }) := by
  rw [exec_eq_next] at h
  injection h with h
  subst h
  by_cases hf : s.fault = .none
  swap
  · exact .inl ⟨hf, by simp [execNext, hostWritable_of_fault hf]⟩
  by_cases hb : s.busy = true
  · exact .inr (.inl ⟨hf, hb, by simp [execNext, hostWritable_of_busy hf hb]⟩)
  have ho : s.Open := ⟨hf, by simpa using hb⟩
  refine .inr (.inr ?_)
  by_cases hr : i ≠ .init ∧ s.ready = false
  · exact .inl ⟨ho, hr.1, hr.2, by simp only [execNext, hostWritable_of_open ho]; rw [if_pos (by simp [hr.1, hr.2])]⟩
  have hr' : i ≠ .init → s.ready = true := fun hi => by
    by_contra hs
    exact hr ⟨hi, by simpa using hs⟩
  have hc : ¬ ((i != .init && !s.ready) = true) := by
    intro hx
    simp only [Bool.and_eq_true, bne_iff_ne, ne_eq, Bool.not_eq_true'] at hx
    exact hr hx
  by_cases hk : requestCheck i { s with opr := encode i } = .none
  · exact .inr (.inr ⟨ho, hr', hk, by simp only [execNext, hostWritable_of_open ho]; rw [if_neg hc]; simp [hk]⟩)
  · exact .inr (.inl ⟨ho, hr', hk, by simp only [execNext, hostWritable_of_open ho]; rw [if_neg hc]; simp [hk]⟩)

/-- A request that every check lets through runs. -/
theorem exec_of_accepted {i : Instr} {s : State} (ho : s.Open) (hr : i ≠ .init → s.ready = true)
    (hc : requestCheck i { s with opr := encode i } = .none) :
    exec i s = .next (requestRun i { s with opr := encode i }) := by
  rw [exec_eq_next]
  have hn : ¬ ((i != .init && !s.ready) = true) := by
    intro hx
    simp only [Bool.and_eq_true, bne_iff_ne, ne_eq, Bool.not_eq_true'] at hx
    simp [hr hx.1] at hx
  simp only [execNext, hostWritable_of_open ho]
  rw [if_neg hn]
  simp [hc]

/-! ### Reset -/

theorem insertByRank_perm (r : Nat → Nat) (e : Nat × Event) (l : List (Nat × Event)) :
    (insertByRank r e l).Perm (e :: l) := by
  induction l with
  | nil => exact List.Perm.refl _
  | cons f rest ih =>
    unfold insertByRank
    split
    · exact List.Perm.refl _
    · exact (List.Perm.cons _ ih).trans (List.Perm.swap _ _ _)

theorem sortByRank_perm (r : Nat → Nat) (l : List (Nat × Event)) : (sortByRank r l).Perm l := by
  induction l with
  | nil => exact List.Perm.refl _
  | cons e rest ih => exact (insertByRank_perm r e _).trans (List.Perm.cons _ ih)

/-- A reset appends the events of the changed lines, in some order (rule R250). -/
theorem resetEvents_perm (n : Nat) (l : Lines) : (resetEvents n l).Perm ((resetChanges l).map Prod.snd) :=
  (sortByRank_perm _ _).map _

/-! ### One input and one step -/

/-- The encoder of a reserved byte's reason is no request. -/
theorem writeOpr_of_request {v : Byte} {i : Instr} (h : decode v = .request i) (s : State) :
    writeOpr v s = exec i s := by
  simp [writeOpr, h]

theorem writeOpr_of_reserved {v : Byte} {r : Reserved} (h : decode v = .reserved r) (s : State) :
    writeOpr v s = .next (rejectReserved v s) := by
  simp [writeOpr, h]

theorem step_of_no_input {s : State} (h : s.inputs = []) : step s = .next s.elapse := by
  simp [step, nextInput, h]

theorem State.elapse_of_idle {s : State} (h : s.busy = false) : s.elapse = s := by
  simp [State.elapse, h]

/-- An encoder with events left waits, and has no timeout (rule R228). -/
theorem State.elapse_of_pending {s : State} (h : s.pending ≠ []) : s.elapse = s := by
  simp [State.elapse, h]

/-- The two things that a step without input can do: a request with no event left ends, and all else waits. -/
theorem State.elapse_cases (s : State) :
    (s.busy = true ∧ s.pending = [] ∧ s.elapse = s.finish) ∨
    ((s.busy = false ∨ s.pending ≠ []) ∧ s.elapse = s) := by
  cases hb : s.busy with
  | false => exact .inr ⟨.inl rfl, State.elapse_of_idle hb⟩
  | true =>
    by_cases hp : s.pending = []
    · exact .inl ⟨rfl, hp, by simp [State.elapse, hb, hp]⟩
    · exact .inr ⟨.inr hp, State.elapse_of_pending hp⟩

theorem step_of_input {s : State} {x : Input} {rest : List Input} (h : s.inputs = x :: rest) :
    step s = deliver x { s with inputs := rest } := by
  simp [step, nextInput, h]

/-- A step goes on without input, or delivers the first one. -/
theorem step_cases {s t : State} (h : step s = .next t) :
    (s.inputs = [] ∧ t = s.elapse) ∨
    (∃ x rest, s.inputs = x :: rest ∧ deliver x { s with inputs := rest } = .next t) := by
  cases hi : s.inputs with
  | nil =>
    rw [step_of_no_input hi] at h
    injection h with h
    exact .inl ⟨rfl, h.symm⟩
  | cons x rest =>
    rw [step_of_input hi] at h
    exact .inr ⟨x, rest, rfl, h⟩

/-- The write of an operand register, by what it stores. -/
def storeOperand (w : HostWrite) (s : State) : State :=
  match w with
  | .argA v => { s with argA := v }
  | .argB v => { s with argB := v }
  | .argV v => { s with argV := v }
  | .argC v => { s with argC := v }
  | .txt i v => { s with txt := TextBuffer.write i v s.txt }
  | .txtLen v => { s with txtLen := v }
  | .opr _ | .resFlag _ | .resVal _ | .status _ => s

/-- The things that one input can do. -/
theorem deliver_cases {x : Input} {s t : State} (h : deliver x s = .next t) :
    (∃ v i, x = .write (.opr v) ∧ decode v = .request i ∧ exec i s = .next t) ∨
    (∃ v r, x = .write (.opr v) ∧ decode v = .reserved r ∧ t = rejectReserved v s) ∨
    (∃ w, x = .write w ∧ (∀ v, w ≠ .opr v) ∧ w.Writable s.cfg.textMax ∧ t = hostWritable (storeOperand w) s) ∨
    (∃ w, x = .write w ∧ (∀ v, w ≠ .opr v) ∧ ¬ w.Writable s.cfg.textMax ∧ t = s) ∨
    (∃ r, x = .read r ∧ t = s) ∨
    (x = .reset ∧ t = applyReset s) ∨
    (∃ p, x = .pace p ∧ t = setPace p s) := by
  cases x with
  | write w =>
    cases w with
    | opr v =>
      cases hd : decode v with
      | request i => exact .inl ⟨v, i, rfl, hd, by simpa [deliver, writeOpr, hd] using h⟩
      | reserved r =>
        rw [show deliver (.write (.opr v)) s = writeOpr v s from rfl, writeOpr_of_reserved hd] at h
        injection h with h
        exact .inr (.inl ⟨v, r, rfl, hd, h.symm⟩)
    | txt i v =>
      simp only [deliver, writeRegister] at h
      split at h
      · next hlt =>
        injection h with h
        exact .inr (.inr (.inl ⟨_, rfl, by simp, hlt, h.symm⟩))
      · cases h
    | argA v => injection h with h; exact .inr (.inr (.inl ⟨_, rfl, by simp, trivial, h.symm⟩))
    | argB v => injection h with h; exact .inr (.inr (.inl ⟨_, rfl, by simp, trivial, h.symm⟩))
    | argV v => injection h with h; exact .inr (.inr (.inl ⟨_, rfl, by simp, trivial, h.symm⟩))
    | argC v => injection h with h; exact .inr (.inr (.inl ⟨_, rfl, by simp, trivial, h.symm⟩))
    | txtLen v => injection h with h; exact .inr (.inr (.inl ⟨_, rfl, by simp, trivial, h.symm⟩))
    | resFlag v =>
      injection h with h; exact .inr (.inr (.inr (.inl ⟨_, rfl, by simp, by simp [HostWrite.Writable], h.symm⟩)))
    | resVal v =>
      injection h with h; exact .inr (.inr (.inr (.inl ⟨_, rfl, by simp, by simp [HostWrite.Writable], h.symm⟩)))
    | status v =>
      injection h with h; exact .inr (.inr (.inr (.inl ⟨_, rfl, by simp, by simp [HostWrite.Writable], h.symm⟩)))
  | read r =>
    refine .inr (.inr (.inr (.inr (.inl ⟨r, rfl, ?_⟩))))
    cases r with
    | txt i =>
      simp only [deliver, readRegister] at h
      split at h
      · injection h with h; exact h.symm
      · cases h
    | _ => injection h with h; exact h.symm
  | reset => injection h with h; exact .inr (.inr (.inr (.inr (.inr (.inl ⟨rfl, h.symm⟩)))))
  | pace p => injection h with h; exact .inr (.inr (.inr (.inr (.inr (.inr ⟨p, rfl, h.symm⟩)))))

end Sys2Proof.Machine
end

