-- ==== Sys2Proof/Laws/Frames.lean ====
section
/-! SUPPORT. The frames: their order of events, what they leave on the lines, and what the chip latches. -/

namespace Sys2Proof.Machine

/-! ### The order of events -/

theorem Phase.run_append (b : Backend) (p : Phase) (xs ys : List Event) :
    Phase.run b p (xs ++ ys) = (Phase.run b p xs).bind fun q => Phase.run b q ys := by
  induction xs generalizing p with
  | nil => rfl
  | cons e rest ih =>
    simp only [List.cons_append, Phase.run]
    cases p.next b e with
    | none => rfl
    | some q => exact ih q

theorem Phase.run_gpioBits (bits : List Bool) :
    Phase.run .gpio .betweenBits (bits.flatMap gpioBit) = some .betweenBits := by
  induction bits with
  | nil => rfl
  | cons b rest ih =>
    rw [List.flatMap_cons, Phase.run_append]
    exact ih

theorem Phase.run_gpioFrame (bits : List Bool) : Phase.run .gpio .idle (gpioFrame bits) = some .idle := by
  unfold gpioFrame
  rw [Phase.run_append, Phase.run_append]
  simp [Phase.run, Phase.next, Phase.run_gpioBits]

theorem Phase.run_spiTxn (w : Word) : Phase.run .spi .idle (spiTxn w) = some .idle := rfl

theorem Phase.run_flatMap {α : Type} {b : Backend} {f : α → List Event} (l : List α)
    (h : ∀ a, Phase.run b .idle (f a) = some .idle) : Phase.run b .idle (l.flatMap f) = some .idle := by
  induction l with
  | nil => rfl
  | cons a rest ih =>
    rw [List.flatMap_cons, Phase.run_append, h]
    exact ih

theorem Phase.run_sendCmd (b : Backend) (c : Byte) : Phase.run b .idle (sendCmd b c) = some .idle := by
  cases b
  · exact Phase.run_gpioFrame _
  · exact Phase.run_spiTxn _

theorem Phase.run_flushEvents (fb : Framebuffer) : Phase.run fb.backend .idle (flushEvents fb) = some .idle := by
  cases fb with
  | gpio w => exact Phase.run_gpioFrame _
  | spi b => exact Phase.run_flatMap _ fun a => Phase.run_spiTxn _

theorem Phase.run_initEvents (b : Backend) (cfg : Config) : Phase.run b .idle (initEvents b cfg) = some .idle := by
  unfold initEvents
  rw [Phase.run_append, Phase.run_flatMap _ fun c => Phase.run_sendCmd b c, Option.bind_some]
  cases b
  · rw [clearDisplayEvents, Phase.run_gpioFrame]
  · exact Phase.run_flatMap _ fun a => Phase.run_spiTxn _

/-- The events of every request are whole frames in the order of rules R140, R142, R254 and R255. -/
theorem Phase.run_requestEvents (i : Instr) (s : State) :
    Phase.run s.backend .idle (requestEvents i s) = some .idle := by
  cases i
  case init => exact Phase.run_initEvents _ _
  case flush => exact Phase.run_flushEvents _
  all_goals first | rfl | exact Phase.run_sendCmd _ _

/-! ### The lines -/

/-- An event that the order allows moves CS_N and WR_N as the phase does, and leaves RD_N. -/
theorem Phase.next_levels {b : Backend} {p q : Phase} {e : Event} {l : Lines} (h : p.next b e = some q)
    (hc : p.csN = l.csN) (hw : p.wrN = l.wrN) :
    q.csN = (l.after e).csN ∧ q.wrN = (l.after e).wrN ∧ (l.after e).rdN = l.rdN := by
  cases b <;> cases p <;> simp only [Phase.next] at h <;> (try split at h) <;> cases h <;>
    simp_all [Lines.after, Phase.csN, Phase.wrN]

theorem Phase.run_levels {b : Backend} {p q : Phase} {es : List Event} {l : Lines} (h : Phase.run b p es = some q)
    (hc : p.csN = l.csN) (hw : p.wrN = l.wrN) :
    q.csN = (es.foldl Lines.after l).csN ∧ q.wrN = (es.foldl Lines.after l).wrN ∧
      (es.foldl Lines.after l).rdN = l.rdN := by
  induction es generalizing p l with
  | nil =>
    simp only [Phase.run, Option.some.injEq] at h
    subst h
    exact ⟨hc, hw, rfl⟩
  | cons e rest ih =>
    simp only [Phase.run] at h
    cases hn : p.next b e with
    | none => simp [hn] at h
    | some r =>
      rw [hn] at h
      obtain ⟨h1, h2, h3⟩ := Phase.next_levels hn hc hw
      obtain ⟨h4, h5, h6⟩ := ih h h1 h2
      exact ⟨h4, h5, h6.trans h3⟩

/-! ### What the chip latches -/

/-- A watcher's level of CS_N is the line's. -/
theorem Latch.csN_after (l : Latch) (k : Lines) (e : Event) (h : l.csN = k.csN) : (l.after e).csN = (k.after e).csN := by
  cases e with
  | pin line v =>
    cases line <;> simp only [Latch.after, Lines.after]
    · cases hl : l.csN <;> cases v <;> simp [hl]
    · split <;> simpa using h
    · exact h
    · exact h
  | dir d => exact h
  | spiByte b =>
    simp only [Latch.after, Lines.after]
    split <;> simpa using h

theorem Latch.csN_foldl (es : List Event) (l : Latch) (k : Lines) (h : l.csN = k.csN) :
    (es.foldl Latch.after l).csN = (es.foldl Lines.after k).csN := by
  induction es generalizing l k with
  | nil => exact h
  | cons e rest ih => exact ih _ _ (Latch.csN_after l k e h)

theorem bitsMsbFirst_word (w : Word) : byteBits (w.extractLsb' 8 8) ++ byteBits (w.extractLsb' 0 8) = bitsMsbFirst w := by
  simp [byteBits, bitsMsbFirst, List.range, List.range.loop, BitVec.getMsbD]

theorem length_gpioFrame (bits : List Bool) : (gpioFrame bits).length = 3 * bits.length + 3 := by
  have h : (bits.flatMap gpioBit).length = 3 * bits.length := by
    induction bits with
    | nil => rfl
    | cons b rest ih =>
      rw [List.flatMap_cons, List.length_append, ih]
      simp only [gpioBit, List.length_cons, List.length_nil]
      omega
  simp [gpioFrame, h]

/-- Inside a frame, the three events of each bit latch that bit, whatever level WR_N starts from (rule R141). -/
theorem Latch.foldl_gpioBits (bits : List Bool) (l : Latch) (h : l.csN = false) :
    ∃ d w, (bits.flatMap gpioBit).foldl Latch.after l = { l with wrN := w, data := d, current := l.current ++ bits } := by
  induction bits generalizing l with
  | nil => exact ⟨l.data, l.wrN, by simp⟩
  | cons b rest ih =>
    rw [List.flatMap_cons, List.foldl_append]
    have hb : (gpioBit b).foldl Latch.after l = { l with wrN := true, data := b, current := l.current ++ [b] } := by
      obtain ⟨c, w, d, cur, f⟩ := l
      simp only at h
      subst h
      cases w <;> simp [gpioBit, Latch.after]
    rw [hb]
    obtain ⟨d, w, hd⟩ := ih { l with wrN := true, data := b, current := l.current ++ [b] } h
    exact ⟨d, w, by rw [hd]; simp⟩

/-- An order that holds of a list holds of its first part, and goes on from there with the rest. -/
theorem Phase.run_split {b : Backend} {p q : Phase} {es : List Event} (n : Nat) (h : Phase.run b p es = some q) :
    ∃ r, Phase.run b p (es.take n) = some r ∧ Phase.run b r (es.drop n) = some q := by
  have hs := Phase.run_append b p (es.take n) (es.drop n)
  rw [List.take_append_drop, h] at hs
  cases hr : Phase.run b p (es.take n) with
  | none => rw [hr] at hs; cases hs
  | some r => rw [hr] at hs; exact ⟨r, rfl, hs.symm⟩

/-! ### What the reference receiver stores -/

/-- The complete nibbles of `data` go to successive addresses from `base` on, where none wraps, and the bits of an
incomplete one are ignored (rules R64, R66). -/
theorem writeNibbles_apply {n : Nat} {data : List Bool} {ram : Nat → Nat → Option Bool} {base : Nat}
    (h : data.length / 4 = n) (hb : base + n ≤ 128) (a d : Nat) :
    writeNibbles ram base data a d =
      if base ≤ a ∧ a < base + n ∧ d < 4 then some (data.getD (4 * (a - base) + d) false) else ram a d := by
  induction n generalizing data ram base with
  | zero =>
    rw [if_neg (by omega)]
    match data with
    | [] => rfl
    | [_] => rfl
    | [_, _] => rfl
    | [_, _, _] => rfl
    | _ :: _ :: _ :: _ :: rest => simp only [List.length_cons] at h; omega
  | succ n ih =>
    match data with
    | [] => simp at h
    | [_] => simp at h
    | [_, _] => simp at h
    | [_, _, _] => simp at h
    | d0 :: d1 :: d2 :: d3 :: rest =>
      simp only [List.length_cons] at h
      simp only [writeNibbles]
      rw [ih (by omega) (by omega)]
      simp only [setNibble]
      by_cases h1 : base + 1 ≤ a ∧ a < base + 1 + n ∧ d < 4
      · rw [if_pos h1, if_pos (by omega)]
        rw [show 4 * (a - base) + d = (4 * (a - (base + 1)) + d) + 4 by omega]
        rfl
      · rw [if_neg h1, Nat.mod_eq_of_lt (by omega : base < 128)]
        by_cases h2 : a = base ∧ d < 4
        · rw [if_pos h2, if_pos (by omega), h2.1, Nat.sub_self]
          have hd := h2.2
          interval_cases d <;> rfl
        · rw [if_neg h2, if_neg (by omega)]

/-! ### The chip at a point of the run -/

/-- Between frames the chip has received the closed frames and nothing else. -/
theorem Latch.chip_of_closed {l : Latch} (h : l.csN = true) : l.chip = Chip.unknown.receiveAll l.frames := by
  simp [Latch.chip, h]

/-- Inside a frame it has received the bits of that frame so far too (rule R73). -/
theorem Latch.chip_of_open {l : Latch} (h : l.csN = false) :
    l.chip = (Chip.unknown.receiveAll l.frames).receive l.current := by
  simp [Latch.chip, h]

/-- The first `n` events of a GPIO frame, sent from between frames: before CS_N falls nothing is latched, and after it
one bit for every three events. -/
theorem Latch.foldl_take_gpioFrame (bits : List Bool) (l : Latch) (h : l.csN = true) (n : Nat)
    (hn : n ≤ 3 * bits.length + 2) :
    (n ≤ 1 → ((gpioFrame bits).take n).foldl Latch.after l = l) ∧
    (2 ≤ n → (((gpioFrame bits).take n).foldl Latch.after l).csN = false ∧
      (((gpioFrame bits).take n).foldl Latch.after l).frames = l.frames ∧
      (((gpioFrame bits).take n).foldl Latch.after l).current = bits.take ((n - 2) / 3)) := by
  have part : ∀ (bits : List Bool) (k : Nat) (l : Latch), l.csN = false →
      (((bits.flatMap gpioBit).take k).foldl Latch.after l).csN = false ∧
      (((bits.flatMap gpioBit).take k).foldl Latch.after l).frames = l.frames ∧
      (((bits.flatMap gpioBit).take k).foldl Latch.after l).current = l.current ++ bits.take (k / 3) := by
    intro bits
    induction bits with
    | nil => intro k l h; simp [h]
    | cons b rest ih =>
      intro k l h
      match k with
      | 0 => simp [h]
      | 1 => simp [gpioBit, Latch.after, h]
      | 2 => simp [gpioBit, Latch.after, h]
      | k + 3 =>
        obtain ⟨h1, h2, h3⟩ := ih k ((gpioBit b).foldl Latch.after l) (by
          cases hw : l.wrN <;> simp [gpioBit, Latch.after, h])
        rw [List.flatMap_cons, List.take_append, List.take_of_length_le (by simp [gpioBit]), List.foldl_append,
          show k + 3 - (gpioBit b).length = k from rfl]
        refine ⟨h1, ?_, ?_⟩
        · rw [h2]; simp [gpioBit, Latch.after, h]
        · rw [h3, show (k + 3) / 3 = k / 3 + 1 by omega]; simp [gpioBit, Latch.after, h]
  have hb : (bits.flatMap gpioBit).length = 3 * bits.length := by
    have := length_gpioFrame bits
    simp [gpioFrame] at this
    simpa using this
  match n, hn with
  | 0, _ => simp
  | 1, _ => simp [gpioFrame, Latch.after]
  | n + 2, hn =>
    refine ⟨fun h => by omega, fun _ => ?_⟩
    obtain ⟨h1, h2, h3⟩ := part bits n { l with csN := false, current := [] } rfl
    have e : ((gpioFrame bits).take (n + 2)).foldl Latch.after l =
        ((bits.flatMap gpioBit).take n).foldl Latch.after { l with csN := false, current := [] } := by
      simp only [gpioFrame, List.cons_append, List.nil_append, List.take_succ_cons, List.foldl_cons]
      rw [List.take_append_of_le_length (by omega)]
      congr 1
      simp [Latch.after, h]
    rw [e]
    exact ⟨h1, h2, by simpa using h3⟩

/-- The first `n` events of an SPI transaction, sent from between frames: CS_N falls, and each byte latches eight bits. -/
theorem Latch.foldl_take_spiTxn (w : Word) (l : Latch) (h : l.csN = true) (n : Nat) (h1 : 1 ≤ n) (h3 : n ≤ 3) :
    (((spiTxn w).take n).foldl Latch.after l).csN = false ∧
    (((spiTxn w).take n).foldl Latch.after l).frames = l.frames ∧
    (((spiTxn w).take n).foldl Latch.after l).current = (bitsMsbFirst w).take (8 * (n - 1)) := by
  rw [← bitsMsbFirst_word]
  interval_cases n <;> simp [spiTxn, Latch.after, h, byteBits, List.range, List.range.loop]

/-- Events that follow, with no reset among them. -/
theorem State.sinceReset_of_append {s t : State} {es : List Event} (ht : t.trace = s.trace ++ es)
    (hm : t.resetMark = s.resetMark) (h : s.resetMark ≤ s.trace.length) : t.sinceReset = s.sinceReset ++ es := by
  rw [State.sinceReset, State.sinceReset, ht, hm, List.drop_append_of_le_length h]

/-- The chip after more events, with no reset among them. -/
theorem State.chip_of_append {s t : State} {es : List Event} (ht : t.trace = s.trace ++ es)
    (hm : t.resetMark = s.resetMark) (h : s.resetMark ≤ s.trace.length) :
    t.chip = (es.foldl Latch.after (s.sinceReset.foldl Latch.after Latch.atReset)).chip := by
  rw [State.chip, State.sinceReset_of_append ht hm h, List.foldl_append]

/-- An idle encoder is between frames, for a watcher since the last reset as for the lines (rule R255). -/
theorem State.sinceReset_csN {s : State} (hi : s.OutputInv) (hb : s.busy = false) :
    (s.sinceReset.foldl Latch.after Latch.atReset).csN = true := by
  rw [Latch.csN_foldl _ Latch.atReset Lines.atReset rfl, ← hi.since]
  obtain ⟨p, h1, h2, h3⟩ := hi.order
  rw [(hi.idle hb).1] at h3
  simp only [Phase.run, Option.some.injEq] at h3
  subst h3
  exact h1.symm

/-- Nothing is known of the chip right after a reset (rule R251). -/
theorem applyReset_chip (s : State) : (applyReset s).chip = Chip.unknown := by
  have h : (applyReset s).sinceReset = [] := by
    rw [State.sinceReset, applyReset_trace, applyReset_resetMark]
    exact List.drop_eq_nil_of_le (by rw [List.length_append])
  rw [State.chip, h]
  rfl

end Sys2Proof.Machine
end

