-- ==== Sys2Proof/Laws/Memory.lean ====
section
/-! SUPPORT. The text buffer: a read after a write, and the canonical form that every write keeps. -/

namespace Sys2Proof.Machine

theorem TextBuffer.read_nil (i : Nat) : TextBuffer.read [] i = 0 := rfl

/-- A canonical list whose indices start at `lo` reads 0 below `lo`. -/
theorem TextBuffer.read_of_lt {lo cap i : Nat} {t : TextBuffer} (h : TextBuffer.wfFrom lo cap t = true) (hi : i < lo) :
    TextBuffer.read t i = 0 := by
  induction t generalizing lo with
  | nil => rfl
  | cons c rest ih =>
    obtain ⟨j, v⟩ := c
    simp only [TextBuffer.wfFrom, Bool.and_eq_true, decide_eq_true_eq] at h
    simp only [TextBuffer.read]
    rw [if_neg (by omega)]
    exact ih h.2 (by omega)

theorem TextBuffer.wfFrom_mono {lo lo' cap : Nat} {t : TextBuffer} (hl : lo' ≤ lo)
    (h : TextBuffer.wfFrom lo cap t = true) : TextBuffer.wfFrom lo' cap t = true := by
  cases t with
  | nil => rfl
  | cons c rest =>
    obtain ⟨j, v⟩ := c
    simp only [TextBuffer.wfFrom, Bool.and_eq_true, decide_eq_true_eq] at h ⊢
    exact ⟨⟨⟨by omega, h.1.1.2⟩, h.1.2⟩, h.2⟩

theorem TextBuffer.wfFrom_write {lo cap i : Nat} {v : CodePoint} {t : TextBuffer}
    (h : TextBuffer.wfFrom lo cap t = true) (hlo : lo ≤ i) (hi : i < cap) :
    TextBuffer.wfFrom lo cap (TextBuffer.write i v t) = true := by
  induction t generalizing lo with
  | nil =>
    unfold TextBuffer.write
    split
    · rfl
    · next hv =>
      simp only [TextBuffer.wfFrom, Bool.and_eq_true, decide_eq_true_eq]
      exact ⟨⟨⟨hlo, hi⟩, hv⟩, trivial⟩
  | cons c rest ih =>
    obtain ⟨j, w⟩ := c
    have h0 := h
    simp only [TextBuffer.wfFrom, Bool.and_eq_true, decide_eq_true_eq] at h
    obtain ⟨⟨⟨h1, h2⟩, h3⟩, h4⟩ := h
    unfold TextBuffer.write
    split
    · next hij =>
      split
      · exact h0
      · next hv =>
        simp only [TextBuffer.wfFrom, Bool.and_eq_true, decide_eq_true_eq]
        exact ⟨⟨⟨hlo, hi⟩, hv⟩, ⟨⟨by omega, h2⟩, h3⟩, h4⟩
    · split
      · next hij =>
        subst hij
        split
        · exact TextBuffer.wfFrom_mono (by omega) h4
        · next hv =>
          simp only [TextBuffer.wfFrom, Bool.and_eq_true, decide_eq_true_eq]
          exact ⟨⟨⟨hlo, hi⟩, hv⟩, h4⟩
      · simp only [TextBuffer.wfFrom, Bool.and_eq_true, decide_eq_true_eq]
        exact ⟨⟨⟨h1, h2⟩, h3⟩, ih h4 (by omega)⟩

/-- Every write to a cell that exists keeps the canonical form. -/
theorem TextBuffer.wf_write {cap i : Nat} {v : CodePoint} {t : TextBuffer} (h : TextBuffer.wf cap t = true)
    (hi : i < cap) : TextBuffer.wf cap (TextBuffer.write i v t) = true :=
  TextBuffer.wfFrom_write h (Nat.zero_le i) hi

theorem TextBuffer.wf_nil (cap : Nat) : TextBuffer.wf cap [] = true := rfl

theorem TextBuffer.readFrom_write {lo cap i j : Nat} {v : CodePoint} {t : TextBuffer}
    (h : TextBuffer.wfFrom lo cap t = true) :
    TextBuffer.read (TextBuffer.write i v t) j = if j = i then v else TextBuffer.read t j := by
  induction t generalizing lo with
  | nil =>
    unfold TextBuffer.write
    split
    · next hv => by_cases hj : j = i <;> simp [TextBuffer.read, hv, hj]
    · by_cases hj : j = i <;> simp [TextBuffer.read, hj]
  | cons c rest ih =>
    obtain ⟨k, w⟩ := c
    simp only [TextBuffer.wfFrom, Bool.and_eq_true, decide_eq_true_eq] at h
    obtain ⟨⟨⟨h1, h2⟩, h3⟩, h4⟩ := h
    unfold TextBuffer.write
    split
    · next hik =>
      split
      · next hv =>
        by_cases hj : j = i
        · subst hj
          simp only [TextBuffer.read, if_true]
          rw [if_neg (by omega), TextBuffer.read_of_lt h4 (by omega), hv]
        · simp [hj]
      · by_cases hj : j = i <;> simp [TextBuffer.read, hj]
    · split
      · next hik =>
        subst hik
        split
        · next hv =>
          by_cases hj : j = i
          · subst hj
            rw [TextBuffer.read_of_lt h4 (by omega)]
            simp [hv]
          · simp [TextBuffer.read, hj]
        · by_cases hj : j = i <;> simp [TextBuffer.read, hj]
      · next hik hne =>
        simp only [TextBuffer.read]
        rw [ih h4]
        by_cases hjk : j = k
        · subst hjk
          rw [if_pos rfl, if_pos rfl, if_neg (by omega)]
        · rw [if_neg hjk, if_neg hjk]

/-- A read after a write: the value written at the cell written, and every other cell as before. -/
theorem TextBuffer.read_write {cap i j : Nat} {v : CodePoint} {t : TextBuffer} (h : TextBuffer.wf cap t = true) :
    TextBuffer.read (TextBuffer.write i v t) j = if j = i then v else TextBuffer.read t j :=
  TextBuffer.readFrom_write h

theorem State.operandText_length (s : State) : s.operandText.length = s.txtLen.toNat := by
  simp [State.operandText]

end Sys2Proof.Machine
end

