-- ==== Sys2Proof/Laws/PerInstr.lean ====
section
/-! SUPPORT. The statements made per request: a request is well formed, and decoding its byte gives it back. -/

namespace Sys2Proof.Laws

/-- Request i is well formed and the decoder reads it back from its byte (rules R90 to R92). -/
def RoundTrip.Statement (i : Instr) : Prop := i.wf = true ∧ decode (encode i) = .request i

theorem RoundTrip.init : RoundTrip.Statement .init := by unfold RoundTrip.Statement; decide

theorem RoundTrip.set : RoundTrip.Statement .set := by unfold RoundTrip.Statement; decide

theorem RoundTrip.get : RoundTrip.Statement .get := by unfold RoundTrip.Statement; decide

theorem RoundTrip.fill : RoundTrip.Statement .fill := by unfold RoundTrip.Statement; decide

theorem RoundTrip.flush : RoundTrip.Statement .flush := by unfold RoundTrip.Statement; decide

theorem RoundTrip.bright : RoundTrip.Statement .bright := by unfold RoundTrip.Statement; decide

theorem RoundTrip.cmdSysDis : RoundTrip.Statement .cmdSysDis := by unfold RoundTrip.Statement; decide

theorem RoundTrip.cmdSysEn : RoundTrip.Statement .cmdSysEn := by unfold RoundTrip.Statement; decide

theorem RoundTrip.cmdLedOff : RoundTrip.Statement .cmdLedOff := by unfold RoundTrip.Statement; decide

theorem RoundTrip.cmdLedOn : RoundTrip.Statement .cmdLedOn := by unfold RoundTrip.Statement; decide

theorem RoundTrip.cmdBlinkOff : RoundTrip.Statement .cmdBlinkOff := by unfold RoundTrip.Statement; decide

theorem RoundTrip.cmdBlinkOn : RoundTrip.Statement .cmdBlinkOn := by unfold RoundTrip.Statement; decide

theorem RoundTrip.cmdClkSlave : RoundTrip.Statement .cmdClkSlave := by unfold RoundTrip.Statement; decide

theorem RoundTrip.cmdClkRc : RoundTrip.Statement .cmdClkRc := by unfold RoundTrip.Statement; decide

theorem RoundTrip.cmdClkExt : RoundTrip.Statement .cmdClkExt := by unfold RoundTrip.Statement; decide

theorem RoundTrip.cmdComN8 : RoundTrip.Statement .cmdComN8 := by unfold RoundTrip.Statement; decide

theorem RoundTrip.cmdComN16 : RoundTrip.Statement .cmdComN16 := by unfold RoundTrip.Statement; decide

theorem RoundTrip.cmdComP8 : RoundTrip.Statement .cmdComP8 := by unfold RoundTrip.Statement; decide

theorem RoundTrip.cmdComP16 : RoundTrip.Statement .cmdComP16 := by unfold RoundTrip.Statement; decide

theorem RoundTrip.find : RoundTrip.Statement .find := by unfold RoundTrip.Statement; decide

theorem RoundTrip.drawg : RoundTrip.Statement .drawg := by unfold RoundTrip.Statement; decide

theorem RoundTrip.text : RoundTrip.Statement .text := by unfold RoundTrip.Statement; decide

theorem RoundTrip.width : RoundTrip.Statement .width := by unfold RoundTrip.Statement; decide

end Sys2Proof.Laws
end

