-- ==== Sys2Proof/Tests/Slice0.lean ====
section
/-! SUPPORT. The model's own tests: the configuration check on ill-formed configurations, every request's byte written
out from rules R90 and R92, one or two steps of each request against the vectors of `spec/95_test_vectors.md`, and
a state that meets the hypotheses of each obligation. -/

namespace Sys2Proof.Tests

-- One theorem at a time: each `decide` waits for the kernel check of the theorems before it, and a hundred that wait
-- at once need a hundred threads.
set_option Elab.async false

open Sys2Proof.Machine

/-! ### Small states -/

/-- A GPIO block after INIT: ready, and its framebuffer all 0. -/
def gpioReady : State := { State.reset with ready := true }

/-- An SPI block after INIT. -/
def spiReady : State := { State.atReset Config.standard (.spi (Vector.replicate 24 0)) with ready := true }

/-- The state that request i leads to. -/
def done (i : Instr) (s : State) : State :=
  match exec i s with
  | .next t => t
  | .fault _ => s
  | .refused _ => s

/-- The state that one step leads to. -/
def stepped (s : State) : State :=
  match step s with
  | .next t => t
  | .fault _ => s
  | .refused _ => s

/-- Row word y of a GPIO block, 0 for an SPI block. -/
def row (s : State) (y : Nat) : Word :=
  match s.fb with
  | .gpio w => rowWord w y
  | .spi _ => 0

/-- Byte i of an SPI block, 0 for a GPIO block. -/
def byteAt (s : State) (i : Nat) : Byte :=
  match s.fb with
  | .gpio _ => 0
  | .spi b => fbByte b i

/-- The frames latched from the trace, each as the number its bits stand for and its length. -/
def sent (s : State) : List (Nat × Nat) := (latchedFrames s.trace).map fun f => (bitsToNat f, f.length)

/-- The host is about to write the byte b to OPR. -/
def writing (b : Byte) (s : State) : State := { s with inputs := [.write (.opr b)] }

/-! ### Ill-formed configurations (rule R8): each condition broken once, and refused at configuration -/

theorem test_config_standard_wf : Config.standard.wf = true := by decide

theorem test_config_com_mode_refused : ({ Config.standard with comMode := 0x20 } : Config).wf = false := by decide

theorem test_config_unsorted_font_refused :
    ({ Config.standard with font := Config.testFont.reverse } : Config).wf = false := by decide

theorem test_config_duplicate_font_refused :
    ({ Config.standard with font := Config.testFont ++ Config.testFont.drop 2 } : Config).wf = false := by decide

theorem test_config_short_record_refused :
    ({ Config.standard with font := [{ code := 0x41, bytes := List.replicate 15 0 }] } : Config).wf = false := by
  decide

theorem test_config_text_max_zero_refused : ({ Config.standard with textMax := 0 } : Config).wf = false := by decide

theorem test_config_text_max_large_refused : ({ Config.standard with textMax := 65536 } : Config).wf = false := by
  decide

theorem test_config_spi_mode_refused : ({ Config.standard with spiMode := 1 } : Config).wf = false := by decide

theorem test_configure_refuses :
    configure { Config.standard with spiMode := 1 } State.reset.fb = .refused .illFormedConfig := by rfl

theorem test_reset_text_canonical : TextBuffer.wf State.reset.cfg.textMax State.reset.txt = true := by decide

/-! ### Decoding: every request's byte, written out from rules R90 and R92 -/

theorem test_decode_init : decode 0b00010000 = .request .init := by decide

theorem test_decode_set : decode 0b00100000 = .request .set := by decide

theorem test_decode_get : decode 0b00110000 = .request .get := by decide

theorem test_decode_fill : decode 0b01000000 = .request .fill := by decide

theorem test_decode_flush : decode 0b01010000 = .request .flush := by decide

theorem test_decode_bright : decode 0b01100000 = .request .bright := by decide

theorem test_decode_cmd_sys_dis : decode 0b01110000 = .request .cmdSysDis := by decide

theorem test_decode_cmd_sys_en : decode 0b01110001 = .request .cmdSysEn := by decide

theorem test_decode_cmd_led_off : decode 0b01110010 = .request .cmdLedOff := by decide

theorem test_decode_cmd_led_on : decode 0b01110011 = .request .cmdLedOn := by decide

theorem test_decode_cmd_blink_off : decode 0b01110100 = .request .cmdBlinkOff := by decide

theorem test_decode_cmd_blink_on : decode 0b01110101 = .request .cmdBlinkOn := by decide

theorem test_decode_cmd_clk_slave : decode 0b01110110 = .request .cmdClkSlave := by decide

theorem test_decode_cmd_clk_rc : decode 0b01110111 = .request .cmdClkRc := by decide

theorem test_decode_cmd_clk_ext : decode 0b01111000 = .request .cmdClkExt := by decide

theorem test_decode_cmd_com_n8 : decode 0b01111001 = .request .cmdComN8 := by decide

theorem test_decode_cmd_com_n16 : decode 0b01111010 = .request .cmdComN16 := by decide

theorem test_decode_cmd_com_p8 : decode 0b01111011 = .request .cmdComP8 := by decide

theorem test_decode_cmd_com_p16 : decode 0b01111100 = .request .cmdComP16 := by decide

theorem test_decode_find : decode 0b10000000 = .request .find := by decide

theorem test_decode_drawg : decode 0b10010000 = .request .drawg := by decide

theorem test_decode_text : decode 0b10100000 = .request .text := by decide

theorem test_decode_width : decode 0b10110000 = .request .width := by decide

theorem test_decode_reserved_op_zero : decode 0b00000000 = .reserved .reservedOp := by decide

theorem test_decode_reserved_op_high : decode 0b11000000 = .reserved .reservedOp := by decide

theorem test_decode_reserved_selector : decode 0b01111101 = .reserved .reservedSelector := by decide

theorem test_decode_selector_not_zero : decode 0b00010001 = .reserved .selectorNotZero := by decide

theorem test_decode_table_word : decodeTableWord 8 0x7C = some .cmdComP16 ∧ decodeTableWord 8 0x7D = none := by decide

/-! ### One step of each request, against `spec/95_test_vectors.md` section 3 -/

/-- Section 3.4: the 1458 events of a GPIO INIT. -/
theorem test_init_gpio : (stepped (State.reset.withFetchWord 8 0x10)).ready = true ∧
    (stepped (State.reset.withFetchWord 8 0x10)).trace.length = 1458 := by decide +kernel

/-- Section 3.4: the first frames of an SPI INIT, and their number. -/
theorem test_init_spi : ((sent (done .init spiReady)).take 8).map Prod.fst =
    [0x8000, 0x8480, 0x8300, 0x8020, 0x95E0, 0x8100, 0x8060, 0xA000] ∧
    (sent (done .init spiReady)).length = 103 := by decide +kernel

/-- Section 3.1: SET 6, 3, 1 in both layouts. -/
theorem test_set : row (done .set { gpioReady with argA := 6, argB := 3, argV := true }) 3 = 0x0200 ∧
    byteAt (done .set { spiReady with argA := 6, argB := 3, argV := true }) 6 = 0x20 := by decide +kernel

/-- Section 3.1: SET 12, 0, 1 leaves the padding alone. -/
theorem test_set_clipped : row (done .set { gpioReady with argA := 12, argB := 0, argV := true }) 0 = 0 := by
  decide +kernel

/-- Property S1: GET 5, 5 after SET 5, 5, 1. -/
theorem test_get : (done .get (done .set { spiReady with argA := 5, argB := 5, argV := true })).resFlag = true := by
  decide +kernel

/-- Property S2: GET -1, 0 gives 0, even over a framebuffer all lit. -/
theorem test_get_clipped : (done .get (done .fill { gpioReady with argA := -1, argV := true })).resFlag = false := by
  decide +kernel

/-- Property S3: FILL 1 in both layouts. -/
theorem test_fill : row (done .fill { gpioReady with argV := true }) 11 = 0xFFF0 ∧
    byteAt (done .fill { spiReady with argV := true }) 22 = 0xFF ∧
    byteAt (done .fill { spiReady with argV := true }) 23 = 0x0F := by decide +kernel

/-- Section 3.4: FLUSH of pixel (11, 11), in SPI. -/
theorem test_flush_spi : ((sent (done .flush (done .set { spiReady with argA := 11, argB := 11, argV := true }))).drop
    44).map Prod.fst = [0xAB00, 0xAB40, 0xAB84, 0xABC0] := by decide +kernel

/-- Section 3.4: FLUSH of a grid all lit, in GPIO: one frame of 202 bits that ends with FFF0. -/
theorem test_flush_gpio : (sent (done .flush (done .fill { gpioReady with argV := true }))).map
    (fun f => (f.1 % 0x10000, f.2)) = [(0xFFF0, 202)] := by decide +kernel

/-- Section 3.3: BRIGHT 20, in both backends. -/
theorem test_bright : sent (done .bright { gpioReady with argA := 20 }) = [(0x95E, 12)] ∧
    sent (done .bright { spiReady with argA := 20 }) = [(0x95E0, 16)] := by decide +kernel

/-- Section 3.3: BRIGHT -5. -/
theorem test_bright_negative : sent (done .bright { gpioReady with argA := -5 }) = [(0x940, 12)] := by decide +kernel

/-! Section 3.2: the frame of each CMD request, in both backends. -/

theorem test_cmd_sys_dis : sent (done .cmdSysDis gpioReady) = [(0x800, 12)] ∧
    sent (done .cmdSysDis spiReady) = [(0x8000, 16)] := by decide +kernel

theorem test_cmd_sys_en : sent (done .cmdSysEn gpioReady) = [(0x802, 12)] ∧
    sent (done .cmdSysEn spiReady) = [(0x8020, 16)] := by decide +kernel

theorem test_cmd_led_off : sent (done .cmdLedOff gpioReady) = [(0x804, 12)] ∧
    sent (done .cmdLedOff spiReady) = [(0x8040, 16)] := by decide +kernel

theorem test_cmd_led_on : sent (done .cmdLedOn gpioReady) = [(0x806, 12)] ∧
    sent (done .cmdLedOn spiReady) = [(0x8060, 16)] := by decide +kernel

theorem test_cmd_blink_off : sent (done .cmdBlinkOff gpioReady) = [(0x810, 12)] ∧
    sent (done .cmdBlinkOff spiReady) = [(0x8100, 16)] := by decide +kernel

theorem test_cmd_blink_on : sent (done .cmdBlinkOn gpioReady) = [(0x812, 12)] ∧
    sent (done .cmdBlinkOn spiReady) = [(0x8120, 16)] := by decide +kernel

theorem test_cmd_clk_slave : sent (done .cmdClkSlave gpioReady) = [(0x820, 12)] ∧
    sent (done .cmdClkSlave spiReady) = [(0x8200, 16)] := by decide +kernel

theorem test_cmd_clk_rc : sent (done .cmdClkRc gpioReady) = [(0x830, 12)] ∧
    sent (done .cmdClkRc spiReady) = [(0x8300, 16)] := by decide +kernel

theorem test_cmd_clk_ext : sent (done .cmdClkExt gpioReady) = [(0x838, 12)] ∧
    sent (done .cmdClkExt spiReady) = [(0x8380, 16)] := by decide +kernel

theorem test_cmd_com_n8 : sent (done .cmdComN8 gpioReady) = [(0x840, 12)] ∧
    sent (done .cmdComN8 spiReady) = [(0x8400, 16)] := by decide +kernel

theorem test_cmd_com_n16 : sent (done .cmdComN16 gpioReady) = [(0x848, 12)] ∧
    sent (done .cmdComN16 spiReady) = [(0x8480, 16)] := by decide +kernel

theorem test_cmd_com_p8 : sent (done .cmdComP8 gpioReady) = [(0x850, 12)] ∧
    sent (done .cmdComP8 spiReady) = [(0x8500, 16)] := by decide +kernel

theorem test_cmd_com_p16 : sent (done .cmdComP16 gpioReady) = [(0x858, 12)] ∧
    sent (done .cmdComP16 spiReady) = [(0x8580, 16)] := by decide +kernel

/-- Section 3.5: FIND 0x4E2D gives (1, 2). -/
theorem test_find : (done .find { gpioReady with argC := 0x4E2D }).resFlag = true ∧
    (done .find { gpioReady with argC := 0x4E2D }).resVal = 2 := by decide +kernel

/-- Section 3.5: FIND 0x10041 is not found: no truncation to 16 bits. -/
theorem test_find_wide : (done .find { gpioReady with argC := 0x10041, resFlag := true }).resFlag = false := by
  decide +kernel

/-- Section 3.5: DRAWG 3, -2, 0 lights (3, 8) and (8, 3) only. -/
theorem test_drawg : (List.range 12).map (row (done .drawg { gpioReady with argA := 3, argB := -2 })) =
    [0, 0, 0, 0x0080, 0, 0, 0, 0, 0x1000, 0, 0, 0] := by decide +kernel

/-- Section 3.6: DRAWG with ARG_C = N_GLYPHS raises F_GLYPH_INDEX. -/
theorem test_drawg_index : (done .drawg { gpioReady with argC := 3 }).statusWord = 0x42 := by decide +kernel

/-- Section 3.5: TEXT 0, 0, [0x41, 0x42]. -/
theorem test_text : (List.range 12).map (row (done .text { gpioReady with txt := [(0, 0x41), (1, 0x42)], txtLen := 2 })) =
    [0x8020, 0, 0, 0, 0, 0x0400, 0x8000, 0x8000, 0x8000, 0x8000, 0x8020, 0x8000] := by decide +kernel

/-- Section 3.6: TXT_LEN = 5 with TEXT_MAX = 4 raises F_TEXT_LEN. -/
theorem test_text_length :
    (done .text { gpioReady with cfg := { Config.standard with textMax := 4 }, txtLen := 5 }).statusWord = 0x52 := by
  decide +kernel

/-- Section 3.5: WIDTH [0x41, 0x58, 0x4E2D] gives 28. -/
theorem test_width :
    (done .width { spiReady with txt := [(0, 0x41), (1, 0x58), (2, 0x4E2D)], txtLen := 3 }).resVal = 28 := by
  decide +kernel

/-- Property S6: WIDTH [] gives 0. -/
theorem test_width_empty : (done .width { gpioReady with resVal := 7 }).resVal = 0 := by decide +kernel

/-- Section 3.6: SET after reset raises F_NOT_INIT, and a reserved value F_ILLEGAL_OP. -/
theorem test_status_faults : (stepped (writing 0x20 State.reset)).statusWord = 0x20 ∧
    (stepped (writing 0x21 State.reset)).statusWord = 0x10 ∧
    (stepped (writing 0x7D gpioReady)).statusWord = 0x12 := by decide +kernel

/-- Section 3.6: a write while a FLUSH runs raises F_BUSY, and the STATUS is 32 once it has ended. -/
theorem test_status_busy :
    (stepped { stepped { done .flush { gpioReady with pace := .units 7 } with inputs := [.write (.argA 3)] } with
      inputs := [.pace .free] }).statusWord = 0x32 := by decide +kernel

/-- Section 3.1: the reference receiver's bit of pixel (9, 7) after FLUSH is D1 of address 30, in both backends. -/
theorem test_chip_bit :
    (done .flush (done .set { gpioReady with argA := 9, argB := 7, argV := true })).chip.ram 30 1 = some true ∧
    (done .flush (done .set { spiReady with argA := 9, argB := 7, argV := true })).chip.ram 30 1 = some true := by
  decide +kernel

/-- Rules R73 and R251: the first nibble of a GPIO FLUSH is new after event 44 and not before, and nothing is known of
the chip after a reset. -/
theorem test_chip_in_flight :
    (done .flush { gpioReady with pace := .units 43 }).chip.ram 0 0 = none ∧
    (done .flush { gpioReady with pace := .units 44 }).chip.ram 0 0 = some false ∧
    (applyReset (done .flush gpioReady)).chip.ram 0 0 = none := by decide +kernel

/-! ### The hypotheses of the obligations can be met, each clause at the ends of its range -/

/-- A block with an empty text buffer of 4 cells, ready. -/
def smallText : State := { gpioReady with cfg := { Config.standard with textMax := 4 } }

/-- A GPIO block inside a FLUSH, 7 of its events sent. -/
def inFlight : State := done .flush { gpioReady with pace := .units 7 }

/-- A GPIO block inside an INIT, no event sent. -/
def inInit : State := done .init { State.reset with pace := .units 0 }

/-- A faulted block. -/
def faulted : State := { gpioReady with fault := .textLen }

theorem gpioReady_accepting : gpioReady.Accepting := ⟨rfl, rfl, rfl⟩

theorem spiReady_accepting : spiReady.Accepting := ⟨rfl, rfl, rfl⟩

theorem gpioReady_storageInv : gpioReady.StorageInv := ⟨by decide, rfl, fun _ => by decide⟩

theorem gpioReady_outputInv : gpioReady.OutputInv := ⟨rfl, by decide, rfl, rfl, ⟨.idle, rfl, rfl, rfl⟩, fun _ => ⟨rfl, rfl⟩⟩

theorem spiReady_outputInv : spiReady.OutputInv := ⟨rfl, by decide, rfl, rfl, ⟨.idle, rfl, rfl, rfl⟩, fun _ => ⟨rfl, rfl⟩⟩

theorem test_hyp_DecodeReadsEncodedRequest : Instr.init.wf = true ∧ Instr.width.wf = true := by decide

theorem test_hyp_DecodeAcceptsOnlyEncodedBytes :
    decode 0x10 = .request .init ∧ decode 0x70 = .request .cmdSysDis ∧ decode 0xB0 = .request .width := by decide

theorem test_hyp_ReservedValuesDecodeToNoRequest :
    ReservedByte 0x00 ∧ ReservedByte 0xC0 ∧ ReservedByte 0xFF ∧ ReservedByte 0x7D ∧ ReservedByte 0x7F ∧
      ReservedByte 0x11 ∧ ReservedByte 0xBF ∧ ¬ ReservedByte 0x10 ∧ ¬ ReservedByte 0x7C ∧ ¬ ReservedByte 0xB0 := by
  refine ⟨?_, ?_, ?_, ?_, ?_, ?_, ?_, ?_, ?_, ?_⟩ <;> unfold ReservedByte <;> decide

theorem test_hyp_StepRunsDecodedRequest :
    (writing 0x50 gpioReady).inputs = .write (.opr 0x50) :: [] ∧ decode 0x50 = .request .flush ∧
      Instr.flush.wf = true := by decide

theorem test_hyp_LineWritesReadBackAsLine :
    smallText.Open ∧ smallText.StorageInv ∧ smallText.inputs = [] ∧
      (AsmLine.text (-32768) 32767 [0x1FFFFF, 0, 1, 0]).Fits smallText.cfg.textMax ∧
      (AsmLine.width []).Fits smallText.cfg.textMax ∧ (AsmLine.cmd 12).Fits smallText.cfg.textMax :=
  ⟨⟨rfl, rfl⟩, ⟨by decide, rfl, fun _ => by decide⟩, rfl, Nat.le_refl 4, Nat.zero_le 4, trivial⟩

theorem test_hyp_ReservedValueRaisesIllegalOp :
    (writing 0x7D gpioReady).Open ∧ (writing 0x7D gpioReady).inputs = .write (.opr 0x7D) :: [] ∧ ReservedByte 0x7D :=
  ⟨⟨rfl, rfl⟩, rfl, by unfold ReservedByte; decide⟩

theorem test_hyp_RequestBeforeInitRaisesNotInit :
    State.reset.Open ∧ State.reset.ready = false ∧ Instr.find ≠ .init := ⟨⟨rfl, rfl⟩, rfl, by decide⟩

theorem test_hyp_WriteWhileBusyRaisesBusy :
    inFlight.fault = .none ∧ inFlight.busy = true ∧
      ({ inFlight with inputs := [.write (.txt 65534 1)] } : State).inputs = .write (.txt 65534 1) :: [] ∧
      (HostWrite.txt 65534 1).Writable inFlight.cfg.textMax ∧ (HostWrite.opr 0x10).Writable inFlight.cfg.textMax :=
  ⟨by decide +kernel, by decide +kernel, rfl, show 65534 < inFlight.cfg.textMax by decide +kernel, trivial⟩

/-- Both clauses: inside a FLUSH, with a frame open, and inside an INIT. -/
theorem test_hyp_RequestInFlightEndsAfterBusyWrite :
    inFlight.OutputInv ∧ inFlight.fault = .none ∧ inFlight.busy = true ∧ inFlight.closing = .nothing ∧
      inFlight.pending.length = 602 ∧ (HostWrite.txt 65534 1).Writable inFlight.cfg.textMax ∧
      ({ inFlight with inputs := [.write (.txt 65534 1), .pace .free] } : State).inputs =
        .write (.txt 65534 1) :: .pace .free :: [] ∧
      inInit.OutputInv ∧ inInit.fault = .none ∧ inInit.busy = true ∧ inInit.closing = .zeroAndReady ∧
      inInit.pending.length = 1458 :=
  ⟨⟨by decide +kernel, by decide +kernel, by decide +kernel, by decide +kernel, ⟨.dataSet, by decide +kernel, by decide +kernel, by decide +kernel⟩,
      fun h => absurd h (by decide +kernel)⟩,
    by decide +kernel, by decide +kernel, by decide +kernel, by decide +kernel,
    show 65534 < inFlight.cfg.textMax by decide +kernel, rfl,
    ⟨by decide +kernel, by decide +kernel, by decide +kernel, by decide +kernel, ⟨.idle, by decide +kernel, by decide +kernel, by decide +kernel⟩,
      fun h => absurd h (by decide +kernel)⟩,
    by decide +kernel, by decide +kernel, by decide +kernel, by decide +kernel⟩

/-- ARG_C at N_GLYPHS and at its largest value. -/
theorem test_hyp_GlyphIndexOutOfRangeFaults :
    ({ gpioReady with argC := 3 } : State).Accepting ∧ gpioReady.cfg.font.length ≤ (3 : CodePoint).toNat ∧
      gpioReady.cfg.font.length ≤ (0x1FFFFF : CodePoint).toNat := ⟨⟨rfl, rfl, rfl⟩, by decide, by decide⟩

theorem test_hyp_TextLongerThanBufferFaults :
    ({ smallText with txtLen := 5 } : State).Accepting ∧ smallText.cfg.textMax < (5 : Word).toNat :=
  ⟨⟨rfl, rfl, rfl⟩, by decide⟩

/-- One state for each clause, and each check at the end of its range. -/
theorem test_hyp_FaultPriorityIsCheckOrder :
    faulted.fault ≠ .none ∧ (inFlight.fault = .none ∧ inFlight.busy = true) ∧
      (gpioReady.Open ∧ ReservedByte 0x7D) ∧ (State.reset.Open ∧ State.reset.ready = false ∧ decode 0x90 = .request .drawg) ∧
      gpioReady.cfg.font.length = 3 ∧ smallText.cfg.textMax = 4 ∧
      step (writing 0x90 gpioReady) = .next (stepped (writing 0x90 gpioReady)) :=
  ⟨by decide, by decide +kernel, ⟨⟨rfl, rfl⟩, by unfold ReservedByte; decide⟩, ⟨⟨rfl, rfl⟩, rfl, by decide⟩, rfl, rfl, rfl⟩

theorem test_hyp_FaultedBlockIgnoresWrites :
    faulted.fault ≠ .none ∧ (HostWrite.argA 5).Writable faulted.cfg.textMax ∧
      (HostWrite.txt 65534 5).Writable faulted.cfg.textMax :=
  ⟨by decide, trivial, show 65534 < faulted.cfg.textMax by decide⟩

/-- A fault that leaves OPR, and one that stores it. -/
theorem test_hyp_FaultLeavesNoPartialEffect :
    (stepped { inFlight with inputs := [.write (.argA 3)] }).fault = .busy ∧
      (stepped (writing 0x7D gpioReady)).fault = .illegalOp ∧ gpioReady.fault = .none ∧ inFlight.fault = .none := by
  decide +kernel

/-- Both clauses: a request, and the reset input. -/
theorem test_hyp_OnlyResetClearsFault :
    step (writing 0x10 faulted) = .next (stepped (writing 0x10 faulted)) ∧ faulted.fault ≠ .none ∧
      (writing 0x10 faulted).inputs.head? ≠ some .reset ∧
      step { faulted with inputs := [.reset] } = .next (stepped { faulted with inputs := [.reset] }) ∧
      ({ faulted with inputs := [.reset] } : State).inputs.head? = some .reset :=
  ⟨rfl, by decide, by decide, rfl, rfl⟩

/-- An open block that keeps the storage invariant, with each register's write next, the last text cell among them. -/
theorem test_hyp_OperandWriteIsStored :
    gpioReady.Open ∧ gpioReady.StorageInv ∧ 65534 < gpioReady.cfg.textMax ∧
      ({ gpioReady with inputs := [.write (.argA (-1))] } : State).inputs = .write (.argA (-1)) :: [] ∧
      ({ gpioReady with inputs := [.write (.argB 5)] } : State).inputs = .write (.argB 5) :: [] ∧
      ({ gpioReady with inputs := [.write (.argV true)] } : State).inputs = .write (.argV true) :: [] ∧
      ({ gpioReady with inputs := [.write (.argC 0x1FFFFF)] } : State).inputs = .write (.argC 0x1FFFFF) :: [] ∧
      ({ gpioReady with inputs := [.write (.txtLen 0xFFFF)] } : State).inputs = .write (.txtLen 0xFFFF) :: [] ∧
      ({ gpioReady with inputs := [.write (.txt 65534 1)] } : State).inputs = .write (.txt 65534 1) :: [] :=
  ⟨⟨rfl, rfl⟩, gpioReady_storageInv, by decide, rfl, rfl, rfl, rfl, rfl, rfl⟩

theorem test_hyp_ReadOnlyRegistersIgnoreWrites :
    ({ gpioReady with inputs := [.write (.resFlag true)] } : State).inputs = .write (.resFlag true) :: [] ∧
      ({ inFlight with inputs := [.write (.resVal 1)] } : State).inputs = .write (.resVal 1) :: [] ∧
      ({ faulted with inputs := [.write (.status 0)] } : State).inputs = .write (.status 0) :: [] := ⟨rfl, rfl, rfl⟩

/-- A register and the last text cell, read from a busy and from a faulted block. -/
theorem test_hyp_HostReadsGiveRegisters :
    ({ inFlight with inputs := [.read .status] } : State).inputs = .read .status :: [] ∧
      ({ faulted with inputs := [.read (.txt 65534)] } : State).inputs = .read (.txt 65534) :: [] ∧
      65534 < faulted.cfg.textMax := ⟨rfl, rfl, by decide⟩

/-- The first cell that does not exist. -/
theorem test_hyp_MissingTextCellStops :
    smallText.cfg.textMax ≤ 4 ∧
      ({ smallText with inputs := [.write (.txt 4 1)] } : State).inputs = .write (.txt 4 1) :: [] ∧
      ({ smallText with inputs := [.read (.txt 4)] } : State).inputs = .read (.txt 4) :: [] := ⟨by decide, rfl, rfl⟩

theorem test_hyp_RequestsKeepOperandAndResultRegisters :
    exec .drawg gpioReady = .next (done .drawg gpioReady) ∧ Instr.drawg ≠ .get ∧ Instr.drawg ≠ .find ∧
      Instr.drawg ≠ .width := ⟨rfl, by decide, by decide, by decide⟩

/-- The least pace that lets a request without events end, and the free pace. -/
theorem test_hyp_SetWritesOnePixel :
    ({ gpioReady with argA := 11, argB := 11, pace := .units 1 } : State).Accepting ∧
      (Pace.units 1).Covers 1 ∧ gpioReady.pace.Covers 1 ∧ (11 : Int) = (11 : Word).toInt :=
  ⟨⟨rfl, rfl, rfl⟩, Nat.le_refl 1, trivial, by decide⟩

/-- A pixel in range and coordinates out of range on each side. -/
theorem test_hyp_GetReadsPixel :
    gpioReady.Accepting ∧ gpioReady.pace.Covers 1 ∧ (11 : Word).toInt = 11 ∧ (0 : Word).toInt = 0 ∧
      ¬ (0 ≤ (12 : Word).toInt ∧ (12 : Word).toInt < 12) ∧ ¬ (0 ≤ (-1 : Word).toInt ∧ (-1 : Word).toInt < 12) :=
  ⟨gpioReady_accepting, trivial, by decide, by decide, by decide, by decide⟩

theorem test_hyp_GetAfterSetReturnsValue :
    gpioReady.Accepting ∧ gpioReady.pace = .free ∧ exec .set gpioReady = .next (done .set gpioReady) ∧
      exec .get (done .set gpioReady) = .next (done .get (done .set gpioReady)) := ⟨gpioReady_accepting, rfl, rfl, rfl⟩

/-- One block of each backend. -/
theorem test_hyp_FillSetsEveryPixel :
    gpioReady.Accepting ∧ gpioReady.pace.Covers 1 ∧ gpioReady.backend = .gpio ∧ spiReady.Accepting ∧
      spiReady.pace.Covers 1 ∧ spiReady.backend = .spi :=
  ⟨gpioReady_accepting, trivial, rfl, spiReady_accepting, trivial, rfl⟩

/-- The first and the last column of both ranges that the layout statements speak of, in the last row. -/
theorem test_hyp_LayoutConverterRoundTrips : (0 < 12 ∧ 11 < 12) ∧
    decS (encS fun x y => decide (x = 11 ∧ y = 11)) 11 11 = true ∧
    decG (encG fun x y => decide (x = 11 ∧ y = 11)) 11 11 = true := by decide +kernel

theorem test_hyp_SpiBytesHoldColumns : 11 < 12 ∧ 3 < 4 ∧
    (Framebuffer.spi (Vector.replicate 24 0x80)).pixel 4 11 = true := by decide +kernel

theorem test_hyp_BackendsAgreeLogically :
    LogicallySame { gpioReady with inputs := [.write (.argV true), .write (.opr 0x40)] }
        { spiReady with inputs := [.write (.argV true), .write (.opr 0x40)] } ∧
      (∀ x ∈ [Input.write (.argV true), .write (.opr 0x40)], x.Silent) ∧
      Sys2Proof.core.run 0 gpioReady = .next gpioReady := by
  refine ⟨⟨rfl, rfl, ?_, rfl, rfl, rfl⟩, ?_, rfl⟩
  · have h : ∀ x < 12, ∀ y < 12, gpioReady.fb.pixel x y = spiReady.fb.pixel x y := by decide +kernel
    exact fun x y hx hy => h x hx y hy
  · intro x hx
    simp only [List.mem_cons, List.not_mem_nil, or_false] at hx
    rcases hx with rfl | rfl
    · exact trivial
    · exact ⟨.fill, by decide, rfl⟩

theorem test_hyp_FramesLatchTheirBits : Latch.atReset.csN = true := rfl

/-- The first and the last row of the table, each backend, and the least pace that covers the frame. -/
theorem test_hyp_CommandRequestSendsItsFrame :
    (Instr.cmdSysDis, (0x00 : Byte)) ∈ commandTable ∧ (Instr.cmdComP16, (0x2C : Byte)) ∈ commandTable ∧
      ({ gpioReady with pace := .units 40 } : State).Accepting ∧ gpioReady.backend = .gpio ∧ (Pace.units 40).Covers 40 ∧
      ({ spiReady with pace := .units 5 } : State).Accepting ∧ spiReady.backend = .spi ∧ (Pace.units 5).Covers 5 :=
  ⟨by decide, by decide, ⟨rfl, rfl, rfl⟩, rfl, Nat.le_refl 40, ⟨rfl, rfl, rfl⟩, rfl, Nat.le_refl 5⟩

/-- The duty below, at and above the clamp's ends. -/
theorem test_hyp_BrightSendsClampedDuty :
    gpioReady.Accepting ∧ gpioReady.backend = .gpio ∧ gpioReady.pace.Covers 40 ∧ spiReady.Accepting ∧
      spiReady.backend = .spi ∧ spiReady.pace.Covers 5 ∧ ((0 : Nat) : Int) = clamp (-1 : Word).toInt 0 15 ∧
      ((15 : Nat) : Int) = clamp (15 : Word).toInt 0 15 ∧ ((15 : Nat) : Int) = clamp (16 : Word).toInt 0 15 :=
  ⟨gpioReady_accepting, rfl, trivial, spiReady_accepting, rfl, trivial, by decide, by decide, by decide⟩

theorem test_hyp_GpioFlushSendsRowWords :
    ({ gpioReady with pace := .units 610 } : State).Accepting ∧ gpioReady.fb = .gpio (Vector.replicate 12 0) ∧
      (Pace.units 610).Covers 610 := ⟨⟨rfl, rfl, rfl⟩, rfl, Nat.le_refl 610⟩

theorem test_hyp_SpiFlushSendsNibbles :
    ({ spiReady with pace := .units 193 } : State).Accepting ∧ spiReady.fb = .spi (Vector.replicate 24 0) ∧
      (Pace.units 193).Covers 193 := ⟨⟨rfl, rfl, rfl⟩, rfl, Nat.le_refl 193⟩

/-- One block of each backend, and paces on both sides of the event that completes the first and the last nibble. -/
theorem test_hyp_FlushPutsGridIntoChip :
    gpioReady.Accepting ∧ gpioReady.StorageInv ∧ gpioReady.OutputInv ∧ gpioReady.pace = .free ∧
      exec .flush gpioReady = .next (done .flush gpioReady) ∧ spiReady.Accepting ∧ spiReady.StorageInv ∧
      spiReady.OutputInv ∧ spiReady.pace = .free ∧ exec .flush spiReady = .next (done .flush spiReady) ∧
      (∀ n ∈ [43, 44, 607, 608], ({ gpioReady with pace := .units n } : State).Accepting ∧
        exec .flush { gpioReady with pace := .units n } = .next (done .flush { gpioReady with pace := .units n })) ∧
      (∀ n ∈ [2, 3, 190, 191], ({ spiReady with pace := .units n } : State).Accepting ∧
        exec .flush { spiReady with pace := .units n } = .next (done .flush { spiReady with pace := .units n })) :=
  ⟨gpioReady_accepting, gpioReady_storageInv, gpioReady_outputInv, rfl, rfl, spiReady_accepting,
    ⟨by decide, rfl, fun _ => by decide⟩, spiReady_outputInv, rfl, rfl, fun _ _ => ⟨⟨rfl, rfl, rfl⟩, rfl⟩,
    fun _ _ => ⟨⟨rfl, rfl, rfl⟩, rfl⟩⟩

/-- Each backend, the free pace and the least pace that covers the sequence. -/
theorem test_hyp_InitSendsItsSequence :
    State.reset.Open ∧ State.reset.backend = .gpio ∧ State.reset.pace.Covers 1459 ∧ (Pace.units 1459).Covers 1459 ∧
      spiReady.Open ∧ spiReady.backend = .spi ∧ spiReady.pace.Covers 413 ∧ (Pace.units 413).Covers 413 :=
  ⟨⟨rfl, rfl⟩, rfl, trivial, Nat.le_refl 1459, ⟨rfl, rfl⟩, rfl, trivial, Nat.le_refl 413⟩

theorem test_hyp_InitLeavesBlockAndChipClear :
    State.reset.Open ∧ State.reset.OutputInv ∧ State.reset.pace = .free ∧
      exec .init State.reset = .next (done .init State.reset) ∧ State.reset.backend = .gpio :=
  ⟨⟨rfl, rfl⟩, ⟨rfl, by decide, rfl, rfl, ⟨.idle, rfl, rfl, rfl⟩, fun _ => ⟨rfl, rfl⟩⟩, rfl, rfl, rfl⟩

theorem test_hyp_SilentRequestsSendNothing :
    Instr.set ∈ silentRequests ∧ Instr.width ∈ silentRequests ∧ exec .set gpioReady = .next (done .set gpioReady) ∧
      ({ gpioReady with pace := .units 0 } : State).Accepting ∧ (done .set gpioReady).fault = .none ∧
      gpioReady.inputs = [] :=
  ⟨by decide, by decide, rfl, ⟨rfl, rfl, rfl⟩, by decide +kernel, rfl⟩

theorem test_hyp_RequestsSendWholeFrames :
    gpioReady.Open ∧ gpioReady.pace = .free ∧ exec .flush gpioReady = .next (done .flush gpioReady) :=
  ⟨⟨rfl, rfl⟩, rfl, rfl⟩

/-- One block of each backend. -/
theorem test_hyp_FramesHaveStatedIdAndLength :
    gpioReady.Open ∧ gpioReady.OutputInv ∧ gpioReady.pace = .free ∧ gpioReady.backend = .gpio ∧
      exec .init gpioReady = .next (done .init gpioReady) ∧ spiReady.Open ∧ spiReady.OutputInv ∧
      spiReady.pace = .free ∧ spiReady.backend = .spi ∧ exec .init spiReady = .next (done .init spiReady) :=
  ⟨⟨rfl, rfl⟩, gpioReady_outputInv, rfl, rfl, rfl, ⟨rfl, rfl⟩, spiReady_outputInv, rfl, rfl, rfl⟩

/-- The first and the last record found, and a code that is not there. -/
theorem test_hyp_FindIsExactMatch :
    gpioReady.Accepting ∧ gpioReady.cfg.wf = true ∧ gpioReady.pace.Covers 1 ∧
      (gpioReady.cfg.font[0]?).map (fun r => r.code.toNat) = some (0x41 : CodePoint).toNat ∧
      (gpioReady.cfg.font[2]?).map (fun r => r.code.toNat) = some (0x4E2D : CodePoint).toNat ∧
      (∀ r ∈ gpioReady.cfg.font, r.code.toNat ≠ (0x10041 : CodePoint).toNat) :=
  ⟨gpioReady_accepting, by decide, trivial, by decide, by decide, by decide⟩

/-- The last glyph index. -/
theorem test_hyp_DrawgLightsSwappedPixels :
    ({ gpioReady with argC := 2 } : State).Accepting ∧ gpioReady.pace.Covers 1 ∧
      (2 : CodePoint).toNat < gpioReady.cfg.font.length := ⟨⟨rfl, rfl, rfl⟩, trivial, by decide⟩

/-- A text that fills the buffer, and the empty one. -/
theorem test_hyp_TextDrawsGlyphsAtCursors :
    ({ smallText with txtLen := 4 } : State).Accepting ∧ smallText.pace.Covers 1 ∧
      (4 : Word).toNat ≤ smallText.cfg.textMax ∧ (0 : Word).toNat ≤ smallText.cfg.textMax :=
  ⟨⟨rfl, rfl, rfl⟩, trivial, by decide, by decide⟩

theorem test_hyp_WidthSumsAdvances :
    ({ smallText with txtLen := 4 } : State).Accepting ∧ smallText.pace.Covers 1 ∧
      (4 : Word).toNat ≤ smallText.cfg.textMax ∧ (0 : Word).toNat ≤ smallText.cfg.textMax :=
  ⟨⟨rfl, rfl, rfl⟩, trivial, by decide, by decide⟩

/-- The longest text after its last code point, from the largest ARG_A, and the empty text from WIDTH's start. -/
theorem test_hyp_CursorAndWidthNeverOverflow :
    65535 ≤ ({ gpioReady with argA := 0x7FFF, txtLen := 0xFFFF } : State).txtLen.toNat ∧
      ((32767 : Int) = ({ gpioReady with argA := 0x7FFF, txtLen := 0xFFFF } : State).argA.toInt ∧
        (0 : Int) = ({ gpioReady with argA := 0x7FFF, txtLen := 0xFFFF } : State).argB.toInt) ∧
      0 ≤ gpioReady.txtLen.toNat ∧
      textWalk gpioReady.cfg.font 0 0 (gpioReady.operandText.take 0) false gpioReady.fb =
        { cx := 0, w := 0, fb := gpioReady.fb } :=
  ⟨by decide, by decide, by decide, rfl⟩

theorem test_hyp_ResetInputRestoresAndClosesFrame :
    ({ inFlight with inputs := [.reset] } : State).inputs = .reset :: [] ∧ inFlight.lines.csN = false ∧
      inFlight.lines.dataDir = .out := ⟨rfl, by decide +kernel, by decide +kernel⟩

theorem test_hyp_ResetSendsNoFrameAndLeavesChipOpen :
    ({ inFlight with inputs := [.reset] } : State).inputs = .reset :: [] := rfl

theorem test_hyp_StalledEncoderWaits :
    inFlight.busy = true ∧ inFlight.pending ≠ [] ∧ inFlight.pace = .units 0 ∧ (∀ x ∈ inFlight.inputs, x.LiftsNoWait) ∧
      (∀ x ∈ [Input.write (.opr 0x10), .read .status], x.LiftsNoWait) ∧
      Sys2Proof.core.run 0 inFlight = .next inFlight := by
  refine ⟨by decide +kernel, by decide +kernel, by decide +kernel, ?_, ?_, rfl⟩
  · have h : inFlight.inputs = [] := by decide +kernel
    rw [h]
    simp
  · intro x hx
    simp only [List.mem_cons, List.not_mem_nil, or_false] at hx
    rcases hx with rfl | rfl <;> exact trivial

theorem test_hyp_PausedRequestEndsTheSame : inFlight.busy = true ∧ inInit.busy = true := by decide +kernel

theorem test_hyp_StepTakesInputsInOrder :
    step { gpioReady with inputs := [.read .status, .read .opr] } =
        .next { gpioReady with inputs := [.read .opr] } ∧ step gpioReady = .next gpioReady := ⟨rfl, rfl⟩

theorem test_hyp_ConfigurationNeverChanges :
    step (writing 0x20 gpioReady) = .next (stepped (writing 0x20 gpioReady)) := rfl

/-- Both clauses: a good configuration, and one that breaks one condition. -/
theorem test_hyp_OnlyWellFormedConfigurationsAreTaken :
    ((Config.standard.comMode = 0x24 ∨ Config.standard.comMode = 0x2C) ∧
      (Config.standard.font.map Glyph.code).Pairwise (· < ·) ∧ (∀ g ∈ Config.standard.font, g.bytes.length = 16) ∧
      1 ≤ Config.standard.textMax ∧ Config.standard.textMax ≤ 65535 ∧
      (Config.standard.spiMode = 0 ∨ Config.standard.spiMode = 3)) ∧
    ¬ (({ Config.standard with textMax := 65536 } : Config).textMax ≤ 65535) := by decide

theorem test_hyp_StepKeepsStorageInv :
    (writing 0x20 gpioReady).StorageInv ∧
      step (writing 0x20 gpioReady) = .next (stepped (writing 0x20 gpioReady)) :=
  ⟨⟨by decide, rfl, fun _ => by decide⟩, rfl⟩

theorem test_hyp_StepKeepsOutputInv :
    (writing 0x50 gpioReady).OutputInv ∧
      step (writing 0x50 gpioReady) = .next (stepped (writing 0x50 gpioReady)) :=
  ⟨⟨rfl, by decide, rfl, rfl, ⟨.idle, rfl, rfl, rfl⟩, fun _ => ⟨rfl, rfl⟩⟩, rfl⟩

end Sys2Proof.Tests
end

/-! The proofs about rules R7 and R8 and the storage invariant. The configuration check is the rule's conditions. A
step is a chain of elementary moves of the state, so what every move keeps, every step keeps. -/

namespace Sys2Proof

/-! ### The configuration check (rule R8) -/

theorem Config.fontRecordsWhole_iff (font : List Glyph) :
    Config.fontRecordsWhole font = true ↔ ∀ g ∈ font, g.bytes.length = 16 := by
  simp [Config.fontRecordsWhole]

/-- The executable check says what rule R8 says. -/
theorem Config.wf_iff (c : Config) :
    c.wf = true ↔ (c.comMode = 0x24 ∨ c.comMode = 0x2C) ∧ (c.font.map Glyph.code).Pairwise (· < ·) ∧
      (∀ g ∈ c.font, g.bytes.length = 16) ∧ 1 ≤ c.textMax ∧ c.textMax ≤ 65535 ∧ (c.spiMode = 0 ∨ c.spiMode = 3) := by
  simp only [Config.wf, Bool.and_eq_true, Bool.or_eq_true, beq_iff_eq, decide_eq_true_eq, Machine.fontAscending_iff,
    Config.fontRecordsWhole_iff, and_assoc]

namespace Machine

theorem configure_of_wf {c : Config} (h : c.wf = true) (fb : Framebuffer) :
    configure c fb = .next (State.atReset c fb) := if_pos h

theorem configure_of_not_wf {c : Config} (h : ¬ c.wf = true) (fb : Framebuffer) :
    configure c fb = .refused .illFormedConfig := if_neg h

/-- Settles O54: `configure` branches on the check, and the check is rule R8. -/
theorem onlyWellFormedConfigurationsAreTaken : Obligations.OnlyWellFormedConfigurationsAreTaken := by
  intro c fb good
  have hgood : c.wf = true ↔ good := c.wf_iff
  exact ⟨fun h => configure_of_wf (hgood.mpr h) fb, fun h => configure_of_not_wf (mt hgood.mp h) fb⟩

/-! ### A step is a chain of moves -/

/-- Request i has passed every check and is under way: its silent effects have happened (log entry 10), and none of
its events is sent yet. -/
def requestStart (i : Instr) (s : State) : State :=
  { s with fb := requestFb i s, resFlag := requestFlag i s, resVal := requestVal i s, busy := true,
           pending := requestEvents i s, closing := requestClosing i }

theorem requestRun_eq_proceed (i : Instr) (s : State) : requestRun i s = (requestStart i s).proceed := rfl

/-- The elementary changes of the state that every step is made of. -/
inductive Move : State → State → Prop where
  /-- The environment's list of inputs moves on. -/
  | inputs (s : State) (xs : List Input) : Move s { s with inputs := xs }
  /-- OPR takes a value (rule R222). -/
  | opr (s : State) (v : Byte) : Move s { s with opr := v }
  /-- A fault code is raised (rule R222). -/
  | fault (s : State) (c : FaultCode) : Move s (raiseFault c s)
  /-- The host's value reaches an operand register that exists (rule R38). -/
  | operand {s : State} {w : HostWrite} (hw : w.Writable s.cfg.textMax) : Move s (storeOperand w s)
  /-- A request starts in an open block (rule R221). -/
  | start {s : State} (i : Instr) (ho : s.Open) : Move s (requestStart i s)
  /-- The transport draws (rule R36). -/
  | pace (s : State) (p : Pace) : Move s { s with pace := p }
  /-- The transport accepts the next events of the request in flight (rules R34, R146). -/
  | send {s : State} (n : Nat) (hb : s.busy = true) :
      Move s { s.emit (s.pending.take n) with pending := s.pending.drop n }
  /-- A request with no event left ends (rules R21, R30). -/
  | finish {s : State} (hb : s.busy = true) (hp : s.pending = []) : Move s s.finish
  /-- The reset input is asserted (rule R250). -/
  | reset (s : State) : Move s (applyReset s)

/-- A chain of moves. -/
abbrev Moves : State → State → Prop := Relation.ReflTransGen Move

theorem Move.moves {s t : State} (h : Move s t) : Moves s t := .single h

/-- The end of a request whose last events are sent: `finish` empties the list of events whatever it held. -/
theorem State.finish_emit_all (s : State) :
    State.finish { s.emit s.pending with pending := [] } = (s.emit s.pending).finish := by
  unfold State.finish
  cases s.closing <;> rfl

theorem moves_finish_emit_all {s : State} (hb : s.busy = true) : Moves s (s.emit s.pending).finish := by
  have hsend : Move s { s.emit s.pending with pending := [] } := by
    simpa using Move.send s.pending.length hb
  rw [← s.finish_emit_all]
  exact hsend.moves.tail (.finish hb rfl)

theorem moves_proceed (s : State) : Moves s s.proceed := by
  obtain ⟨-, h⟩ | ⟨hb, -, h⟩ | ⟨hb, n, -, -, h⟩ := s.proceed_cases
  · rw [h]
  · rw [h]
    exact (moves_finish_emit_all hb).tail (.pace _ _)
  · rw [h]
    exact (Move.send n hb).moves.tail (.pace _ _)

theorem moves_elapse (s : State) : Moves s s.elapse := by
  obtain ⟨hb, hp, h⟩ | ⟨-, h⟩ := s.elapse_cases
  · rw [h]
    exact (Move.finish hb hp).moves
  · rw [h]

theorem moves_hostWritable {f : State → State} {s : State} (hf : s.Open → Moves s (f s)) :
    Moves s (hostWritable f s) :=
  hostWritable_keeps (Moves s) .refl (Move.fault s .busy).moves hf

theorem moves_exec {i : Instr} {s t : State} (h : exec i s = .next t) : Moves s t := by
  obtain ⟨-, rfl⟩ | ⟨-, -, rfl⟩ | ⟨-, -, -, rfl⟩ | ⟨-, -, -, rfl⟩ | ⟨ho, -, -, rfl⟩ := exec_cases h
  · exact .refl
  · exact (Move.fault s .busy).moves
  · exact (Move.opr s _).moves.tail (.fault _ _)
  · exact (Move.opr s _).moves.tail (.fault _ _)
  · rw [requestRun_eq_proceed]
    exact ((Move.opr s (encode i)).moves.tail (.start i ho)).trans (moves_proceed _)

theorem moves_deliver {x : Input} {s t : State} (h : deliver x s = .next t) : Moves s t := by
  obtain ⟨v, i, -, -, hx⟩ | ⟨v, r, -, -, rfl⟩ | ⟨w, -, -, hw, rfl⟩ | ⟨w, -, -, -, rfl⟩ | ⟨r, -, rfl⟩ | ⟨-, rfl⟩ |
    ⟨p, -, rfl⟩ := deliver_cases h
  · exact moves_exec hx
  · exact moves_hostWritable fun _ => (Move.opr s v).moves.tail (.fault _ _)
  · exact moves_hostWritable fun _ => (Move.operand hw).moves
  · exact .refl
  · exact .refl
  · exact (Move.reset s).moves
  · exact (Move.pace s p).moves.trans (moves_proceed _)

/-- Every step is a chain of moves. -/
theorem moves_step {s t : State} (h : step s = .next t) : Moves s t := by
  obtain ⟨-, rfl⟩ | ⟨x, rest, -, hx⟩ := step_cases h
  · exact moves_elapse s
  · exact (Move.inputs s rest).moves.trans (moves_deliver hx)

theorem keeps_of_moves {P : State → Prop} (hP : ∀ {s t : State}, Move s t → P s → P t) {s t : State}
    (h : Moves s t) (hs : P s) : P t := by
  induction h with
  | refl => exact hs
  | tail _ hm ih => exact hP hm ih

/-- What every move keeps, every step keeps. -/
theorem step_keeps_of_move_keeps {P : State → Prop} (hP : ∀ {s t : State}, Move s t → P s → P t) {s t : State}
    (h : step s = .next t) (hs : P s) : P t :=
  keeps_of_moves hP (moves_step h) hs

/-! ### The configuration and the backend stay (rules R7, R33) -/

theorem backend_requestFb (i : Instr) (s : State) : (requestFb i s).backend = s.fb.backend := by
  cases i
  case set => exact backend_fbSet ..
  case fill => exact backend_fbFill ..
  case drawg => exact backend_drawGlyph ..
  case text => exact walk_backend ..
  all_goals rfl

theorem State.backend_finish (s : State) : s.finish.backend = s.backend := by
  unfold State.finish
  cases s.closing
  · rfl
  · exact backend_fbZero s.fb

theorem storeOperand_cfg (w : HostWrite) (s : State) : (storeOperand w s).cfg = s.cfg := by cases w <;> rfl

theorem storeOperand_fb (w : HostWrite) (s : State) : (storeOperand w s).fb = s.fb := by cases w <;> rfl

theorem storeOperand_ready (w : HostWrite) (s : State) : (storeOperand w s).ready = s.ready := by cases w <;> rfl

theorem Move.cfg_eq {s t : State} (h : Move s t) : t.cfg = s.cfg := by
  cases h with
  | operand _ => exact storeOperand_cfg ..
  | finish _ _ => exact s.finish_cfg
  | _ => rfl

theorem Move.backend_eq {s t : State} (h : Move s t) : t.backend = s.backend := by
  cases h with
  | operand _ => exact congrArg Framebuffer.backend (storeOperand_fb ..)
  | start i _ => exact backend_requestFb i s
  | finish _ _ => exact s.backend_finish
  | reset => exact backend_fbUnspecified s.fb s.resets
  | _ => rfl

/-- Settles O53: no move touches the configuration or replaces the framebuffer's backend. -/
theorem configurationNeverChanges : Obligations.ConfigurationNeverChanges := by
  intro s t h
  refine step_keeps_of_move_keeps (P := fun u => u.cfg = s.cfg ∧ u.backend = s.backend) ?_ h ⟨rfl, rfl⟩
  rintro u v hm ⟨hcfg, hbackend⟩
  exact ⟨hm.cfg_eq.trans hcfg, hm.backend_eq.trans hbackend⟩

/-! ### The padding of the framebuffer stays 0 (rules R27, R28, R61) -/

/-- Padding that was 0 stays 0 where no bit of columns 12 to 15 becomes lit. -/
theorem Framebuffer.paddingZero_of_lit {a b : Framebuffer} (ha : a.paddingZero = true)
    (h : ∀ x y : Nat, 12 ≤ x → x < 16 → y < 12 → b.pixel x y = true → a.pixel x y = true) : b.paddingZero = true := by
  rw [Framebuffer.paddingZero_iff] at ha ⊢
  intro x y hx hx' hy
  have hlit := h x y hx hx' hy
  rw [ha x y hx hx' hy] at hlit
  simpa using hlit

theorem paddingZero_fbSet {fb : Framebuffer} (h : fb.paddingZero = true) (x y : Int) (v : Bool) :
    (fbSet fb x y v).paddingZero = true := by
  refine Framebuffer.paddingZero_of_lit h fun x' y' hx hx' hy hlit => ?_
  rwa [pixel_fbSet fb x y v hx' hy, if_neg (by omega)] at hlit

theorem paddingZero_fbFill (fb : Framebuffer) (v : Bool) : (fbFill fb v).paddingZero = true := by
  cases fb <;> cases v <;> rfl

theorem paddingZero_fbZero (fb : Framebuffer) : (fbZero fb).paddingZero = true :=
  (Framebuffer.paddingZero_iff _).mpr fun _ _ _ hx hy => pixel_fbZero fb hx hy

/-- A glyph lights no padding: rule R195 clips at column 12. -/
theorem not_glyphLights_padding {font : List Glyph} {g : Nat} {x0 y0 : Int} {x y : Nat} (hx : 12 ≤ x) :
    ¬ GlyphLights font g x0 y0 x y := fun h => absurd h.1 (by omega)

theorem paddingZero_drawGlyph {fb : Framebuffer} (h : fb.paddingZero = true) (font : List Glyph) (x0 y0 : Int)
    (g : Nat) : (drawGlyph font x0 y0 g fb).paddingZero = true := by
  refine Framebuffer.paddingZero_of_lit h fun x y hx hx' hy hlit => ?_
  rw [pixel_drawGlyph font x0 y0 g fb hx' hy] at hlit
  exact hlit.resolve_right (not_glyphLights_padding hx)

theorem paddingZero_textWalk {fb : Framebuffer} (h : fb.paddingZero = true) (font : List Glyph) (x0 y0 : Int)
    (text : List CodePoint) : (textWalk font x0 y0 text true fb).fb.paddingZero = true := by
  refine Framebuffer.paddingZero_of_lit h fun x y hx hx' hy hlit => ?_
  rw [textWalk, pixel_walk font y0 text _ hx' hy] at hlit
  refine hlit.resolve_right ?_
  rintro ⟨_, _, _, -, hglyph⟩
  exact not_glyphLights_padding hx hglyph

theorem paddingZero_requestFb (i : Instr) {s : State} (h : s.fb.paddingZero = true) :
    (requestFb i s).paddingZero = true := by
  cases i
  case set => exact paddingZero_fbSet h ..
  case fill => exact paddingZero_fbFill ..
  case drawg => exact paddingZero_drawGlyph h ..
  case text => exact paddingZero_textWalk h ..
  all_goals exact h

theorem State.paddingZero_finish {s : State} (h : s.ready = true → s.fb.paddingZero = true) :
    s.finish.ready = true → s.finish.fb.paddingZero = true := by
  unfold State.finish
  cases s.closing
  · exact h
  · exact fun _ => paddingZero_fbZero s.fb

/-! ### The storage invariant -/

theorem storeOperand_txt_wf {w : HostWrite} {s : State} (hw : w.Writable s.cfg.textMax)
    (h : TextBuffer.wf s.cfg.textMax s.txt = true) : TextBuffer.wf s.cfg.textMax (storeOperand w s).txt = true := by
  cases w
  case txt i v => exact TextBuffer.wf_write h hw
  all_goals exact h

theorem Move.txt_wf {s t : State} (hm : Move s t) (h : TextBuffer.wf s.cfg.textMax s.txt = true) :
    TextBuffer.wf s.cfg.textMax t.txt = true := by
  cases hm with
  | operand hw => exact storeOperand_txt_wf hw h
  | finish _ _ => rwa [s.finish_txt]
  | reset => exact TextBuffer.wf_nil _
  | _ => exact h

theorem Move.paddingZero {s t : State} (hm : Move s t) (h : s.ready = true → s.fb.paddingZero = true) :
    t.ready = true → t.fb.paddingZero = true := by
  cases hm with
  | operand _ => rwa [storeOperand_ready, storeOperand_fb]
  | start i _ => exact fun hr => paddingZero_requestFb i (h hr)
  | finish _ _ => exact State.paddingZero_finish h
  | reset => exact fun hr => absurd hr (by simp)
  | _ => exact h

theorem Move.storageInv {s t : State} (hm : Move s t) (h : s.StorageInv) : t.StorageInv where
  config := hm.cfg_eq ▸ h.config
  text := hm.cfg_eq ▸ hm.txt_wf h.text
  padding := hm.paddingZero h.padding

/-- Settles O55: every move keeps the three parts of the invariant. -/
theorem stepKeepsStorageInv : Obligations.StepKeepsStorageInv :=
  fun _ _ hs h => step_keeps_of_move_keeps Move.storageInv h hs

end Machine
end Sys2Proof

/-! The proofs about the registers, the outputs and the text traversal. A reset brings every line back whatever order
its events come in, a request's frames start and end between frames, and a move either leaves the outputs alone or
goes on along the frame that is open. -/

namespace Sys2Proof.Machine

/-! ### The events of a reset bring every line back (rule R250) -/

/-- The events that a reset may append: one for each line, giving it its level of rule R39. -/
def restoringEvents : List Event :=
  [.pin .csN Lines.atReset.csN, .pin .wrN Lines.atReset.wrN, .pin .rdN Lines.atReset.rdN,
    .pin .data Lines.atReset.data, .dir Lines.atReset.dataDir]

theorem mem_restoringEvents_of_mem_resetChanges {l : Lines} {e : Event} (h : e ∈ (resetChanges l).map Prod.snd) :
    e ∈ restoringEvents := by
  simp only [resetChanges, List.map_append, List.mem_append] at h
  simp only [restoringEvents, List.mem_cons]
  obtain (((h | h) | h) | h) | h := h <;> split at h <;> simp_all

/-- Two restoring events are of different lines, or the same event. -/
theorem restoringEvents_comm : ∀ e ∈ restoringEvents, ∀ f ∈ restoringEvents, ∀ l : Lines,
    (l.after e).after f = (l.after f).after e := by
  simp [restoringEvents, Lines.after]

/-- An event left out because its line has its level already changes nothing. -/
theorem foldl_after_omitted {p : Prop} [Decidable p] {l : Lines} {n : Nat} {e : Event} (h : p → l.after e = l) :
    ((if p then [] else [(n, e)]).map Prod.snd).foldl Lines.after l = l.after e := by
  split
  · next hp => exact (h hp).symm
  · rfl

theorem foldl_resetChanges (l : Lines) : ((resetChanges l).map Prod.snd).foldl Lines.after l = Lines.atReset := by
  simp only [resetChanges, List.map_append, List.foldl_append]
  rw [foldl_after_omitted (l := l), foldl_after_omitted (l := l.after _),
    foldl_after_omitted (l := (l.after _).after _), foldl_after_omitted (l := ((l.after _).after _).after _),
    foldl_after_omitted (l := (((l.after _).after _).after _).after _)]
  · rfl
  all_goals exact fun h => by rw [← h]; rfl

/-- The order that the rank leaves open does not matter to the lines. -/
theorem foldl_resetEvents (n : Nat) (l : Lines) : (resetEvents n l).foldl Lines.after l = Lines.atReset := by
  have hperm := resetEvents_perm n l
  rw [hperm.foldl_eq' fun e he f hf k => ?_, foldl_resetChanges]
  exact restoringEvents_comm e (mem_restoringEvents_of_mem_resetChanges (hperm.mem_iff.mp he)) f
    (mem_restoringEvents_of_mem_resetChanges (hperm.mem_iff.mp hf)) k

/-! ### The output invariant (rules R34, R37, R100, R250, R254, R255) -/

/-- An idle encoder stands between frames. -/
theorem State.OutputInv.levels_of_idle {s : State} (h : s.OutputInv) (hb : s.busy = false) :
    Phase.idle.csN = s.lines.csN ∧ Phase.idle.wrN = s.lines.wrN := by
  obtain ⟨p, hcs, hwr, hrun⟩ := h.order
  rw [(h.idle hb).1] at hrun
  obtain rfl : p = .idle := Option.some.inj hrun
  exact ⟨hcs, hwr⟩

theorem storeOperand_outputInv {s : State} (h : s.OutputInv) (w : HostWrite) : (storeOperand w s).OutputInv := by
  cases w <;> exact ⟨h.levels, h.mark, h.since, h.read, h.order, h.idle⟩

/-- A request starts between frames, and its events are whole frames. -/
theorem requestStart_outputInv {s : State} (h : s.OutputInv) (i : Instr) (hb : s.busy = false) :
    (requestStart i s).OutputInv where
  levels := h.levels
  mark := h.mark
  since := h.since
  read := h.read
  order := by
    obtain ⟨hcs, hwr⟩ := h.levels_of_idle hb
    refine ⟨.idle, hcs, hwr, ?_⟩
    rw [show (requestStart i s).backend = s.backend from backend_requestFb i s]
    exact Phase.run_requestEvents i s
  idle := fun hbusy => absurd hbusy Bool.noConfusion

theorem State.OutputInv.levels_emit {s : State} (h : s.OutputInv) (es : List Event) :
    (s.emit es).lines = (s.emit es).trace.foldl Lines.after Lines.atReset := by
  rw [s.emit_lines, s.emit_trace, List.foldl_append, ← h.levels]

theorem State.OutputInv.since_emit {s : State} (h : s.OutputInv) (es : List Event) :
    (s.emit es).lines = (s.emit es).sinceReset.foldl Lines.after Lines.atReset := by
  rw [State.sinceReset_of_append (s.emit_trace es) (s.emit_resetMark es) h.mark, List.foldl_append, ← h.since,
    s.emit_lines]

/-- The events sent are a first part of those left, so the frame that is open goes on. -/
theorem send_outputInv {s : State} (h : s.OutputInv) (n : Nat) (hb : s.busy = true) :
    State.OutputInv { s.emit (s.pending.take n) with pending := s.pending.drop n } := by
  obtain ⟨p, hcs, hwr, hrun⟩ := h.order
  obtain ⟨q, hsent, hleft⟩ := Phase.run_split n hrun
  obtain ⟨hcs', hwr', hrd⟩ := Phase.run_levels hsent hcs hwr
  exact
    { levels := h.levels_emit _
      mark := h.mark.trans (by simp)
      since := h.since_emit _
      read := hrd.trans h.read
      order := ⟨q, hcs', hwr', hleft⟩
      idle := fun hidle => absurd (hb.symm.trans hidle) Bool.noConfusion }

theorem finish_outputInv {s : State} (h : s.OutputInv) (hp : s.pending = []) : s.finish.OutputInv where
  levels := by simpa using h.levels
  mark := by simpa using h.mark
  since := by simpa [State.sinceReset] using h.since
  read := by simpa using h.read
  order := by
    obtain ⟨p, hcs, hwr, hrun⟩ := h.order
    refine ⟨p, by simpa using hcs, by simpa using hwr, ?_⟩
    rwa [s.backend_finish, s.finish_pending, ← hp]
  idle := fun _ => ⟨s.finish_pending, s.finish_closing⟩

theorem applyReset_outputInv {s : State} (h : s.OutputInv) : (applyReset s).OutputInv where
  levels := by rw [applyReset_lines, applyReset_trace, List.foldl_append, ← h.levels, foldl_resetEvents]
  mark := by simp
  since := by simp [State.sinceReset]
  read := rfl
  order := ⟨.idle, rfl, rfl, rfl⟩
  idle := fun _ => ⟨rfl, rfl⟩

theorem Move.outputInv {s t : State} (hm : Move s t) (h : s.OutputInv) : t.OutputInv := by
  cases hm with
  | operand _ => exact storeOperand_outputInv h _
  | start i ho => exact requestStart_outputInv h i ho.2
  | send n hb => exact send_outputInv h n hb
  | finish _ hp => exact finish_outputInv h hp
  | reset => exact applyReset_outputInv h
  | _ => exact ⟨h.levels, h.mark, h.since, h.read, h.order, h.idle⟩

/-- Settles O56: every move keeps the outputs in order. -/
theorem stepKeepsOutputInv : Obligations.StepKeepsOutputInv :=
  fun _ _ hs h => step_keeps_of_move_keeps Move.outputInv h hs

/-- Settles O58: no event is sent yet, and no line has moved. -/
theorem resetStateHasOutputInv : Obligations.ResetStateHasOutputInv where
  levels := rfl
  mark := Nat.le_refl 0
  since := rfl
  read := rfl
  order := ⟨.idle, rfl, rfl, rfl⟩
  idle := fun _ => ⟨rfl, rfl⟩

end Sys2Proof.Machine

/-! The proofs about single steps and requests: which input a step takes, what a host access does, what a request
changes besides the outputs, and that a pause of the transport changes nothing in the end. -/

namespace Sys2Proof.Machine

/-! ### What a request leaves (rules R24, R25, R32) -/

theorem requestFlag_of_ne {i : Instr} (hget : i ≠ .get) (hfind : i ≠ .find) (s : State) :
    requestFlag i s = s.resFlag := by
  cases i
  case get => exact absurd rfl hget
  case find => exact absurd rfl hfind
  all_goals rfl

theorem requestVal_of_ne {i : Instr} (hfind : i ≠ .find) (hwidth : i ≠ .width) (s : State) :
    requestVal i s = s.resVal := by
  cases i
  case find => exact absurd rfl hfind
  case width => exact absurd rfl hwidth
  all_goals rfl

/-- Settles O22: a request that is refused touches OPR and FAULT only, and one that runs writes the result registers
as `requestFlag` and `requestVal` say. -/
theorem requestsKeepOperandAndResultRegisters : Obligations.RequestsKeepOperandAndResultRegisters := by
  intro i s t h
  obtain ⟨-, rfl⟩ | ⟨-, -, rfl⟩ | ⟨-, -, -, rfl⟩ | ⟨-, -, -, rfl⟩ | ⟨-, -, -, rfl⟩ := exec_cases h
  case inr.inr.inr.inr =>
    simp only [requestRun, State.launch_argA, State.launch_argB, State.launch_argV, State.launch_argC,
      State.launch_txt, State.launch_txtLen, State.launch_resFlag, State.launch_resVal, true_and]
    exact ⟨fun hget hfind => requestFlag_of_ne hget hfind _, fun hfind hwidth => requestVal_of_ne hfind hwidth _⟩
  all_goals exact ⟨rfl, rfl, rfl, rfl, rfl, rfl, fun _ _ => rfl, fun _ _ => rfl⟩

/-! ### What a request sends under a free pace (rules R37, R145) -/

theorem State.proceed_of_free {s : State} (hb : s.busy = true) (hp : s.pace = .free) :
    s.proceed = (s.emit s.pending).finish := by
  simp [State.proceed, hb, hp]

theorem requestRun_of_free (i : Instr) {s : State} (hp : s.pace = .free) :
    requestRun i s = ((requestStart i s).emit (requestEvents i s)).finish :=
  State.proceed_of_free (s := requestStart i s) rfl hp

/-- Settles O41: a refused request sends nothing, and one that runs sends the whole frames of `requestEvents`. -/
theorem requestsSendWholeFrames : Obligations.RequestsSendWholeFrames := by
  intro i s t ho hfree h
  obtain ⟨hf, -⟩ | ⟨-, hb, -⟩ | ⟨-, -, -, rfl⟩ | ⟨-, -, -, rfl⟩ | ⟨-, -, -, rfl⟩ := exec_cases h
  · exact absurd ho.1 hf
  · exact absurd (hb.symm.trans ho.2) Bool.noConfusion
  · exact ⟨ho.2, [], s.trace.append_nil.symm, rfl⟩
  · exact ⟨ho.2, [], s.trace.append_nil.symm, rfl⟩
  · rw [requestRun_of_free (s := { s with opr := encode i }) i hfree]
    exact ⟨State.finish_busy _, _, State.finish_trace _, Phase.run_requestEvents i { s with opr := encode i }⟩

/-! ### A pause of the transport (rule R146) -/

/-- `s` with the transport's draw and the inputs to come replaced, which are the environment's (rule R36). -/
def State.environ (s : State) (p : Pace) (xs : List Input) : State := { s with pace := p, inputs := xs }

theorem State.environ_environ (s : State) (p q : Pace) (xs ys : List Input) :
    (s.environ p xs).environ q ys = s.environ q ys := rfl

theorem step_of_pace (s : State) (p : Pace) (xs : List Input) :
    step { s with inputs := .pace p :: xs } = .next (s.environ p xs).proceed := rfl

/-- The end of a request does not depend on the environment. -/
theorem State.finish_environ (s : State) (p : Pace) (xs : List Input) :
    (s.environ p xs).finish = s.finish.environ p xs := by
  unfold State.finish State.environ
  cases s.closing <;> rfl

theorem State.finish_of_pending (s : State) (es : List Event) : State.finish { s with pending := es } = s.finish := by
  unfold State.finish
  cases s.closing <;> rfl

theorem State.emit_take_drop (s : State) (n : Nat) (es : List Event) :
    (s.emit (es.take n)).emit (es.drop n) = s.emit es := by
  simp only [State.emit, List.append_assoc, ← List.foldl_append, List.take_append_drop]

/-- Going on freely sends all that is left and ends the request. -/
theorem State.proceed_environ_free {s : State} (hb : s.busy = true) (xs : List Input) :
    (s.environ .free xs).proceed = (s.emit s.pending).finish.environ .free xs := by
  rw [← State.finish_environ]
  exact State.proceed_of_free hb rfl

/-- The first `n` events of the request in flight are sent, and the others are left. -/
def State.sendFirst (s : State) (n : Nat) : State :=
  { s.emit (s.pending.take n) with pending := s.pending.drop n }

theorem State.finish_sendFirst (s : State) (n : Nat) :
    ((s.sendFirst n).emit (s.sendFirst n).pending).finish = (s.emit s.pending).finish := by
  rw [← s.emit_take_drop n]
  exact State.finish_of_pending ((s.emit (s.pending.take n)).emit (s.pending.drop n)) (s.pending.drop n)

/-- Going on ends the request with all its events sent, or leaves it with some of them sent. -/
theorem State.proceed_environ_cases {s : State} (hb : s.busy = true) (p : Pace) (xs : List Input) :
    (∃ q, (s.environ p xs).proceed = (s.emit s.pending).finish.environ q xs) ∨
    ∃ n, (s.environ p xs).proceed = (s.sendFirst n).environ (.units 0) xs := by
  obtain ⟨hidle, -⟩ | ⟨-, -, h⟩ | ⟨-, n, -, -, h⟩ := (s.environ p xs).proceed_cases
  · exact absurd (hb.symm.trans hidle) Bool.noConfusion
  · have hend : ((s.environ p xs).emit (s.environ p xs).pending).finish = (s.emit s.pending).finish.environ p xs :=
      (s.emit s.pending).finish_environ p xs
    rw [hend] at h
    exact .inl ⟨_, h⟩
  · exact .inr ⟨n, h⟩

/-- Going on for a while and then freely is going on freely at once: the request has ended already, or the events sent
first and those left make up all of them. -/
theorem State.proceed_environ_free_proceed {s : State} (hb : s.busy = true) (p : Pace) (xs ys : List Input) :
    ((s.environ p xs).proceed.environ .free ys).proceed = (s.environ .free ys).proceed := by
  rw [s.proceed_environ_free hb ys]
  obtain ⟨q, h⟩ | ⟨n, h⟩ := s.proceed_environ_cases hb p xs
  · rw [h]
    exact State.proceed_of_idle (State.finish_busy _)
  · rw [h, State.environ_environ, State.proceed_environ_free (s := s.sendFirst n) hb, s.finish_sendFirst]

/-- Settles O51: both runs are draws of the transport, and the second one is free. -/
theorem pausedRequestEndsTheSame : Obligations.PausedRequestEndsTheSame := by
  intro s n rest hb
  have hpause : (s.environ (.units n) (.pace .free :: rest)).proceed.inputs = .pace .free :: rest :=
    State.proceed_inputs _
  rw [run_succ_of_next (step_of_pace s _ _), run_one_of_next (step_of_pace s _ _),
    run_one_of_next (step_of_input hpause)]
  exact congrArg _ (s.proceed_environ_free_proceed hb _ _ _)

/-! ### The cursor and the width of a text (rules R29, R192, R196) -/

theorem State.operandText_take {s : State} {k : Nat} (hk : k ≤ s.txtLen.toNat) :
    s.operandText.take k = (List.range k).map (TextBuffer.read s.txt) := by
  rw [State.operandText, ← List.map_take, List.take_range, Nat.min_eq_left hk]

theorem textWalk_cx_take {s : State} {k : Nat} (hk : k ≤ s.txtLen.toNat) (x0 y0 : Int) (draw : Bool)
    (fb : Framebuffer) :
    (textWalk s.cfg.font x0 y0 (s.operandText.take k) draw fb).cx = x0 + advanceBefore s k := by
  rw [textWalk, walk_cx, State.operandText_take hk, advanceBefore_eq]

theorem textWalk_w_take {s : State} {k : Nat} (hk : k ≤ s.txtLen.toNat) (x0 y0 : Int) (draw : Bool)
    (fb : Framebuffer) :
    (textWalk s.cfg.font x0 y0 (s.operandText.take k) draw fb).w = advanceBefore s k := by
  rw [textWalk, walk_w, State.operandText_take hk, advanceBefore_eq, Nat.zero_add]

/-- A start that is 0 or a sign-extended 16-bit operand. -/
theorem start_bounds {w : Word} {z : Int} (h : z = w.toInt ∨ z = 0) : -32768 ≤ z ∧ z < 32768 := by
  have hlo := w.le_toInt
  have hhi := w.toInt_lt
  omega

/-- Settles O47: every advance is at most 15, and TXT_LEN at most 65535. -/
theorem cursorAndWidthNeverOverflow : Obligations.CursorAndWidthNeverOverflow := by
  rintro s k x0 y0 draw walk hk hstart rfl
  have hx : -32768 ≤ x0 ∧ x0 < 32768 := start_bounds (hstart.imp And.left And.left)
  have hy : -32768 ≤ y0 ∧ y0 < 32768 := start_bounds (hstart.imp And.right And.right)
  have hadv : advanceBefore s k ≤ 15 * 65535 := by
    have := advanceBefore_le s k
    have := s.txtLen.isLt
    omega
  rw [textWalk_cx_take hk, textWalk_w_take hk]
  simp only [abs_lt, Int.reducePow, true_and]
  omega

/-! ### Which request a step runs (rules R23, R90) -/

theorem step_of_request {s : State} {b : Byte} {i : Instr} {rest : List Input}
    (hs : s.inputs = .write (.opr b) :: rest) (hd : decode b = .request i) :
    step s = exec i { s with inputs := rest } := by
  rw [step_of_input hs]
  exact writeOpr_of_request hd _

/-- Settles O5: a write to OPR is delivered to `writeOpr`, which runs what the byte decodes to. -/
theorem stepRunsDecodedRequest : Obligations.StepRunsDecodedRequest :=
  fun _ _ _ _ hs hd _ => step_of_request hs hd

theorem decode_encode (i : Instr) : decode (encode i) = .request i := by cases i <;> rfl

theorem withFetchWord_byte (s : State) (b : Byte) : s.withFetchWord 8 b.toNat = withRequestByte b s := by
  rw [State.withFetchWord, Nat.mod_eq_of_lt b.isLt, BitVec.ofNat_toNat, BitVec.setWidth_eq]

/-- Settles O6: the byte placed decodes to the request it encodes. -/
theorem fetchedWordRunsNext : Obligations.FetchedWordRunsNext := by
  intro s i
  rw [withFetchWord_byte]
  exact step_of_request rfl (decode_encode i)

/-! ### Host accesses (rules R22, R24, R38) -/

/-- A write of an operand register that exists goes through checks 1 and 2 of rule R221 and is stored. -/
theorem deliver_operand {w : HostWrite} {s : State} (hopr : ∀ v, w ≠ .opr v) (hw : w.Writable s.cfg.textMax) :
    deliver (.write w) s = .next (hostWritable (storeOperand w) s) := by
  cases w with
  | opr v => exact absurd rfl (hopr v)
  | txt i v => exact if_pos hw
  | resFlag _ => exact hw.elim
  | resVal _ => exact hw.elim
  | status _ => exact hw.elim
  | _ => rfl

theorem step_of_operand {s : State} {w : HostWrite} {rest : List Input} (ho : s.Open)
    (hs : s.inputs = .write w :: rest) (hopr : ∀ v, w ≠ .opr v) (hw : w.Writable s.cfg.textMax) :
    step s = .next (storeOperand w { s with inputs := rest }) :=
  calc step s
      = deliver (.write w) { s with inputs := rest } := step_of_input hs
    _ = .next (hostWritable (storeOperand w) { s with inputs := rest }) := deliver_operand hopr hw
    _ = .next (storeOperand w { s with inputs := rest }) := congrArg _ (hostWritable_of_open ho)

/-- Settles O18: `storeOperand` is the store, and the text buffer reads back what is written (its canonical form). -/
theorem operandWriteIsStored : Obligations.OperandWriteIsStored := by
  intro s rest ho hinv
  refine ⟨fun v hs => ?_, fun v hs => ?_, fun v hs => ?_, fun v hs => ?_, fun v hs => ?_, fun i v hs hi => ?_⟩
  case refine_6 => exact ⟨_, step_of_operand ho hs nofun hi, fun _ => TextBuffer.read_write hinv.text⟩
  all_goals exact step_of_operand ho hs nofun trivial

/-- Settles O19: `writeRegister` answers the state it is given, before any check of rule R221. -/
theorem readOnlyRegistersIgnoreWrites : Obligations.ReadOnlyRegistersIgnoreWrites :=
  fun _ _ => ⟨fun _ hs => step_of_input hs, fun _ hs => step_of_input hs, fun _ hs => step_of_input hs⟩

theorem writeRegister_missing_txt {s : State} {i : Nat} (h : s.cfg.textMax ≤ i) (v : CodePoint) :
    writeRegister (.txt i v) s = .fault (.noTextCell i) := if_neg (Nat.not_lt.mpr h)

theorem readRegister_missing_txt {s : State} {i : Nat} (h : s.cfg.textMax ≤ i) :
    readRegister (.txt i) s = .fault (.noTextCell i) := if_neg (Nat.not_lt.mpr h)

/-- Settles O20: both accesses look at TEXT_MAX first. -/
theorem missingTextCellStops : Obligations.MissingTextCellStops := fun s _ rest hi =>
  ⟨fun v hs => (step_of_input hs).trans (writeRegister_missing_txt (s := { s with inputs := rest }) hi v),
    fun hs => (step_of_input hs).trans (readRegister_missing_txt (s := { s with inputs := rest }) hi)⟩

theorem readRegister_of_exists {s : State} {r : HostReg} (h : ∀ i, r = .txt i → i < s.cfg.textMax) :
    readRegister r s = .next s := by
  cases r with
  | txt i => exact if_pos (h i rfl)
  | _ => rfl

theorem toNat_bit (v : Bool) : (bit v).toNat = if v = true then 1 else 0 := by cases v <;> rfl

/-- Settles O59: a register that exists is read without effect, and no register is wider than 32 bits. -/
theorem hostReadsGiveRegisters : Obligations.HostReadsGiveRegisters := by
  refine ⟨fun s r rest hs hr => (step_of_input hs).trans (readRegister_of_exists hr), fun s => ?_⟩
  simp only [State.hostRead, BitVec.zeroExtend, BitVec.toNat_setWidth_of_le, Nat.reduceLeDiff, toNat_bit, implies_true,
    and_self]

/-! ### The fields of STATUS (rules R30, R31) -/

/-- The high part of a concatenation, as a number. -/
theorem toNat_append_div {m n : Nat} (x : BitVec m) (y : BitVec n) : (x ++ y).toNat / 2 ^ n = x.toNat := by
  rw [BitVec.toNat_append, ← Nat.shiftRight_eq_div_pow, Nat.shiftRight_or_distrib, Nat.shiftLeft_shiftRight,
    Nat.shiftRight_eq_zero _ _ y.isLt, Nat.or_zero]

theorem statusWord_div (s : State) : s.statusWord.toNat / 16 = s.fault.code.toNat := by
  calc s.statusWord.toNat / 16
      = s.statusWord.toNat / 2 ^ 1 / 2 ^ 1 / 2 ^ 2 := by simp only [Nat.div_div_eq_div_mul]; rfl
    _ = s.fault.code.toNat := by simp only [State.statusWord, toNat_append_div]

/-- Settles O21: the four fields are concatenated, FAULT on top. -/
theorem statusFieldsStandWhereStated : Obligations.StatusFieldsStandWhereStated := by
  intro s
  refine ⟨?_, ?_, ?_, ?_, ?_⟩
  case refine_5 =>
    rw [statusWord_div]
    cases s.fault <;> rfl
  all_goals
    simp only [State.statusWord, BitVec.getLsbD_append]
    simp [bit]

/-! ### The state after reset (rule R39) -/

theorem atReset_statusWord (cfg : Config) (fb : Framebuffer) : (State.atReset cfg fb).statusWord = 0 := by
  show FaultCode.none.code ++ (0 : BitVec 2) ++ bit false ++ bit false = (0 : Byte)
  decide

/-- Settles O48: every register is a literal of `State.atReset`, and an empty trace tells nothing of the chip. -/
theorem resetStateHasStatedValues : Obligations.ResetStateHasStatedValues :=
  ⟨fun _ _ =>
      ⟨atReset_statusWord _ _, rfl, rfl, rfl, rfl, rfl, rfl, fun _ => rfl, rfl, rfl, rfl, rfl, fun _ _ => rfl⟩,
    Config.standard, _, rfl⟩

/-- Settles O57: no text cell is listed, and READY is 0. -/
theorem resetStateHasStorageInv : Obligations.ResetStateHasStorageInv where
  config := by decide
  text := TextBuffer.wf_nil _
  padding := nofun

end Sys2Proof.Machine

/-! The proofs about the order of the inputs, SET and GET, the requests that send nothing, and FLUSH. An accepted
request leaves its effects and the events the pace lets through. -/

namespace Sys2Proof.Machine

/-! ### The inputs still to come (log entry 7) -/

theorem storeOperand_inputs (w : HostWrite) (s : State) : (storeOperand w s).inputs = s.inputs := by cases w <;> rfl

theorem hostWritable_inputs {f : State → State} {s : State} (hf : (f s).inputs = s.inputs) :
    (hostWritable f s).inputs = s.inputs :=
  hostWritable_keeps (fun t => t.inputs = s.inputs) rfl rfl fun _ => hf

theorem exec_inputs {i : Instr} {s t : State} (h : exec i s = .next t) : t.inputs = s.inputs := by
  obtain ⟨-, rfl⟩ | ⟨-, -, rfl⟩ | ⟨-, -, -, rfl⟩ | ⟨-, -, -, rfl⟩ | ⟨-, -, -, rfl⟩ := exec_cases h
  case inr.inr.inr.inr => exact State.launch_inputs ..
  all_goals rfl

/-- What reaches the block does not touch the inputs after it. -/
theorem deliver_inputs {x : Input} {s t : State} (h : deliver x s = .next t) : t.inputs = s.inputs := by
  obtain ⟨v, i, -, -, hx⟩ | ⟨v, r, -, -, rfl⟩ | ⟨w, -, -, -, rfl⟩ | ⟨w, -, -, -, rfl⟩ | ⟨r, -, rfl⟩ | ⟨-, rfl⟩ |
    ⟨p, -, rfl⟩ := deliver_cases h
  · exact exec_inputs hx
  · exact hostWritable_inputs rfl
  · exact hostWritable_inputs (storeOperand_inputs w s)
  · rfl
  · rfl
  · rfl
  · exact State.proceed_inputs _

/-- Settles O52: a step without input leaves the empty list, and one with input delivers the first entry to a state
that holds the others. -/
theorem stepTakesInputsInOrder : Obligations.StepTakesInputsInOrder := by
  intro s t h
  obtain ⟨hnone, rfl⟩ | ⟨x, rest, hsome, hx⟩ := step_cases h
  · rw [s.elapse_inputs, hnone, List.tail_nil]
  · rw [deliver_inputs hx, hsome, List.tail_cons]

/-! ### What a request's meaning does not read: OPR and the pace -/

theorem requestCheck_opr_pace (i : Instr) (s : State) (v : Byte) (p : Pace) :
    requestCheck i { s with opr := v, pace := p } = requestCheck i s := by
  cases i <;> rfl

theorem requestFb_opr_pace (i : Instr) (s : State) (v : Byte) (p : Pace) :
    requestFb i { s with opr := v, pace := p } = requestFb i s := by
  cases i <;> rfl

theorem requestFlag_opr_pace (i : Instr) (s : State) (v : Byte) (p : Pace) :
    requestFlag i { s with opr := v, pace := p } = requestFlag i s := by
  cases i <;> rfl

theorem requestVal_opr_pace (i : Instr) (s : State) (v : Byte) (p : Pace) :
    requestVal i { s with opr := v, pace := p } = requestVal i s := by
  cases i <;> rfl

theorem requestEvents_opr_pace (i : Instr) (s : State) (v : Byte) (p : Pace) :
    requestEvents i { s with opr := v, pace := p } = requestEvents i s := by
  cases i <;> rfl

/-! ### A request that every check lets through -/

theorem requestClosing_of_ne_init {i : Instr} (h : i ≠ .init) : requestClosing i = .nothing := by
  cases i
  case init => exact absurd rfl h
  all_goals rfl

/-- `s` after request i has ended, its silent effects and its events among them. INIT does more than this at its end
(rule R170). -/
def requestDone (i : Instr) (s : State) : State :=
  { s.afterRequest i (requestEvents i s) with
    fb := requestFb i s, resFlag := requestFlag i s, resVal := requestVal i s }

/-- Where the pace covers its end, an accepted request other than INIT has its effects, sends its events and ends. -/
theorem exec_of_covers {i : Instr} {s : State} (hi : i ≠ .init) (ha : s.Accepting)
    (hc : requestCheck i s = .none) (hp : s.pace.Covers ((requestEvents i s).length + 1)) :
    exec i s = .next (requestDone i s) := by
  rw [exec_of_accepted ha.toOpen (fun _ => ha.2.2) ((requestCheck_opr_pace i s _ _).trans hc), requestRun,
    requestClosing_of_ne_init hi, requestEvents_opr_pace, requestFb_opr_pace, requestFlag_opr_pace, requestVal_opr_pace,
    State.launch_nothing (by exact hp), requestDone, State.afterRequest, ha.2.1]

theorem requestDone_accepting {s : State} (ha : s.Accepting) (i : Instr) : (requestDone i s).Accepting := ha

theorem requestDone_pace_free {s : State} (hp : s.pace = .free) (i : Instr) : (requestDone i s).pace = .free := by
  simp [requestDone, State.afterRequest, Pace.spend, hp]

theorem Pace.covers_of_free {p : Pace} (h : p = .free) (k : Nat) : p.Covers k := by
  rw [h]
  trivial

/-! ### GET after SET (rules R77, R120, R121, R131) -/

/-- FbGet reads what FbSet wrote in range, and 0 out of range. -/
theorem fbGet_fbSet (fb : Framebuffer) (x y : Int) (v : Bool) : fbGet (fbSet fb x y v) x y = (inb x y && v) := by
  cases h : inb x y with
  | false => simp [fbGet, h]
  | true =>
    obtain ⟨hx, hx', hy, hy'⟩ := (inb_iff x y).mp h
    simp only [fbGet, h, if_true, Bool.true_and]
    rw [pixel_fbSet fb x y v (by omega) (by omega), if_pos (by omega)]

/-- Settles O25: SET leaves the block accepting with the same operands, so GET reads the bit that SET wrote. -/
theorem getAfterSetReturnsValue : Obligations.GetAfterSetReturnsValue := by
  intro s t u ha hp hset hget
  rw [exec_of_covers (by decide) ha rfl (Pace.covers_of_free hp _)] at hset
  obtain rfl : requestDone .set s = t := Host.Outcome.next.inj hset
  rw [exec_of_covers (by decide) (requestDone_accepting ha _) rfl
    (Pace.covers_of_free (requestDone_pace_free hp _) _)] at hget
  obtain rfl : requestDone .get (requestDone .set s) = u := Host.Outcome.next.inj hget
  have hflag : (requestDone .get (requestDone .set s)).resFlag =
      fbGet (fbSet s.fb s.argA.toInt s.argB.toInt s.argV) s.argA.toInt s.argB.toInt := rfl
  rw [hflag, fbGet_fbSet]
  simp only [← inb_iff]
  cases inb s.argA.toInt s.argB.toInt <;> rfl

/-! ### Requests that send nothing (rules R74, R133) -/

theorem requestEvents_of_silent {i : Instr} (h : i ∈ silentRequests) (s : State) : requestEvents i s = [] := by
  simp only [silentRequests, List.mem_cons, List.not_mem_nil, or_false] at h
  obtain rfl | rfl | rfl | rfl | rfl | rfl | rfl := h <;> rfl

theorem ne_init_of_silent {i : Instr} (h : i ∈ silentRequests) : i ≠ .init := by
  rintro rfl
  exact absurd h (by decide)

/-- How many of `k` events the transport accepts before the next input lands (rule R36). -/
def Pace.accepts (p : Pace) (k : Nat) : Nat :=
  match p with
  | .free => k
  | .units n => n

theorem Pace.take_accepts_of_covers {p : Pace} {es : List Event} (h : p.Covers (es.length + 1)) :
    es.take (p.accepts es.length) = es := by
  cases p with
  | free => exact List.take_length
  | units n => exact List.take_of_length_le (Nat.le_of_succ_le h)

/-- Going on with a request appends to the trace, and moves the lines by, the events that the pace lets through. -/
theorem State.proceed_outputs {s : State} (hb : s.busy = true) :
    s.proceed.trace = s.trace ++ s.pending.take (s.pace.accepts s.pending.length) ∧
      s.proceed.lines = (s.pending.take (s.pace.accepts s.pending.length)).foldl Lines.after s.lines := by
  obtain ⟨hidle, -⟩ | ⟨-, hc, h⟩ | ⟨-, n, hp, -, h⟩ := s.proceed_cases
  · exact absurd (hb.symm.trans hidle) Bool.noConfusion
  · rw [h, Pace.take_accepts_of_covers hc]
    exact ⟨State.finish_trace _, State.finish_lines _⟩
  · rw [h, hp]
    exact ⟨rfl, rfl⟩

theorem requestRun_outputs (i : Instr) (s : State) :
    (requestRun i s).trace = s.trace ++ (requestEvents i s).take (s.pace.accepts (requestEvents i s).length) ∧
      (requestRun i s).lines =
        ((requestEvents i s).take (s.pace.accepts (requestEvents i s).length)).foldl Lines.after s.lines :=
  State.proceed_outputs (s := requestStart i s) rfl

/-- A silent request leaves the outputs as they were, whether it is refused or runs. -/
theorem exec_outputs_of_silent {i : Instr} {s t : State} (hi : i ∈ silentRequests) (h : exec i s = .next t) :
    t.trace = s.trace ∧ t.lines = s.lines := by
  obtain ⟨-, rfl⟩ | ⟨-, -, rfl⟩ | ⟨-, -, -, rfl⟩ | ⟨-, -, -, rfl⟩ | ⟨-, -, -, rfl⟩ := exec_cases h
  case inr.inr.inr.inr =>
    obtain ⟨htrace, hlines⟩ := requestRun_outputs i { s with opr := encode i }
    rw [requestEvents_of_silent hi, List.take_nil] at htrace hlines
    exact ⟨htrace.trans s.trace.append_nil, hlines⟩
  all_goals exact ⟨rfl, rfl⟩

theorem requestDone_pace (i : Instr) (s : State) (p : Pace) :
    requestDone i { s with pace := p } = { requestDone i s with pace := p.spend ((requestEvents i s).length + 1) } := by
  rw [requestDone, State.afterRequest, requestEvents_opr_pace, requestFb_opr_pace, requestFlag_opr_pace,
    requestVal_opr_pace]
  rfl

/-- Without a unit of pace, an accepted silent request has its whole effect and is left BUSY (log entries 6 and 10). -/
theorem exec_of_no_unit {i : Instr} {s : State} (hi : i ∈ silentRequests) (ha : s.Accepting)
    (hc : requestCheck i s = .none) (hp : s.pace = .units 0) :
    exec i s = .next { requestDone i s with pace := .units 0, busy := true } := by
  rw [exec_of_accepted ha.toOpen (fun _ => ha.2.2) ((requestCheck_opr_pace i s _ _).trans hc), requestRun_eq_proceed,
    State.proceed_of_short (n := 0) rfl (by exact hp) (Nat.zero_le _), requestStart,
    requestClosing_of_ne_init (ne_init_of_silent hi), requestEvents_opr_pace, requestFb_opr_pace, requestFlag_opr_pace,
    requestVal_opr_pace, requestDone, requestEvents_of_silent hi]
  rfl

/-- An accepted request that raises no fault has passed its check. -/
theorem requestCheck_of_no_fault {i : Instr} {s t : State} (ha : s.Accepting) (h : exec i s = .next t)
    (ht : t.fault = .none) : requestCheck i s = .none := by
  obtain ⟨hf, -⟩ | ⟨-, hb, -⟩ | ⟨-, -, hr, -⟩ | ⟨-, -, hc, rfl⟩ | ⟨-, -, hc, -⟩ := exec_cases h
  · exact absurd ha.1 hf
  · exact absurd (hb.symm.trans ha.2.1) Bool.noConfusion
  · exact absurd (hr.symm.trans ha.2.2) Bool.noConfusion
  · exact absurd ht hc
  · exact (requestCheck_opr_pace i s _ _).symm.trans hc

/-- A request with no event left and no closing step ends in a step without input, and BUSY alone changes. -/
theorem step_of_nothing_left {s : State} (hi : s.inputs = []) (hb : s.busy = true) (hp : s.pending = [])
    (hc : s.closing = .nothing) : step s = .next { s with busy := false } := by
  obtain ⟨-, -, h⟩ | ⟨hwait, -⟩ := s.elapse_cases
  · rw [step_of_no_input hi, h, State.finish, hc, ← hp]
  · exact absurd hwait (by simp [hb, hp])

/-- Settles O40: the request has no event to send, and both paces give it the same effect. -/
theorem silentRequestsSendNothing : Obligations.SilentRequestsSendNothing := by
  intro i s t hi ht
  refine ⟨exec_outputs_of_silent hi ht, fun u ha hp hu hfault => ?_⟩
  have haFree : State.Accepting { s with pace := .free } := ha
  have hcFree : requestCheck i { s with pace := .free } = .none := requestCheck_of_no_fault haFree hu hfault
  have hc : requestCheck i s = .none := (requestCheck_opr_pace i s _ _).symm.trans hcFree
  rw [exec_of_no_unit hi ha hc hp] at ht
  rw [exec_of_covers (ne_init_of_silent hi) haFree hcFree trivial, requestDone_pace] at hu
  obtain rfl := Host.Outcome.next.inj ht
  obtain rfl := Host.Outcome.next.inj hu
  exact ⟨rfl, fun hnone => step_of_nothing_left hnone rfl rfl rfl⟩

/-! ### Bits in transmit order (rule R67) -/

theorem length_bitsMsbFirst {n : Nat} (w : BitVec n) : (bitsMsbFirst w).length = n := by simp [bitsMsbFirst]

theorem getD_bitsMsbFirst {n : Nat} (w : BitVec n) {k : Nat} (hk : k < n) :
    (bitsMsbFirst w).getD k false = w.getMsbD k := by
  simp [bitsMsbFirst, hk]

theorem bitsMsbFirst_append {m n : Nat} (x : BitVec m) (y : BitVec n) :
    bitsMsbFirst (x ++ y) = bitsMsbFirst x ++ bitsMsbFirst y := by
  simp only [bitsMsbFirst, List.range_add, List.map_append, List.map_map]
  congr 1
  · refine List.map_congr_left fun k hk => ?_
    rw [List.mem_range] at hk
    simp [BitVec.getMsbD_append, hk]
  · refine List.map_congr_left fun k _ => ?_
    simp [BitVec.getMsbD_append]

theorem bitsToNat_concat (bits : List Bool) (b : Bool) : bitsToNat (bits ++ [b]) = 2 * bitsToNat bits + b.toNat := by
  simp [bitsToNat]

/-- The first `k` bits of a value stand for its top `k` bits. -/
theorem bitsToNat_range_getMsbD {n : Nat} (w : BitVec n) {k : Nat} (hk : k ≤ n) :
    bitsToNat ((List.range k).map fun i => w.getMsbD i) = w.toNat / 2 ^ (n - k) := by
  induction k with
  | zero => rw [Nat.sub_zero, Nat.div_eq_of_lt w.isLt]; rfl
  | succ k ih =>
    obtain ⟨m, hm⟩ : ∃ m, n - k = m + 1 := ⟨n - k - 1, by omega⟩
    have hbit : (w.getMsbD k).toNat = w.toNat / 2 ^ m % 2 := by
      rw [BitVec.getMsbD_eq_getLsbD, decide_eq_true (by omega : k < n), Bool.true_and, show n - 1 - k = m by omega,
        ← BitVec.testBit_toNat, Nat.toNat_testBit]
    rw [List.range_succ, List.map_append, List.map_singleton, bitsToNat_concat, ih (by omega), hbit,
      show n - (k + 1) = m by omega, hm, Nat.pow_succ, ← Nat.div_div_eq_div_mul]
    exact Nat.div_add_mod _ 2

theorem bitsToNat_bitsMsbFirst {n : Nat} (w : BitVec n) : bitsToNat (bitsMsbFirst w) = w.toNat := by
  rw [bitsMsbFirst, bitsToNat_range_getMsbD w (Nat.le_refl n), Nat.sub_self, Nat.pow_zero, Nat.div_one]

/-- Bit j of block i, where every block has k bits. -/
theorem getElem?_flatMap_of_length {α β : Type} {f : α → List β} {k : Nat} (hf : ∀ a, (f a).length = k) (l : List α)
    (i : Nat) {j : Nat} (hj : j < k) : (l.flatMap f)[k * i + j]? = l[i]?.bind fun a => (f a)[j]? := by
  induction l generalizing i with
  | nil => rfl
  | cons a rest ih =>
    rw [List.flatMap_cons]
    cases i with
    | zero => rw [List.getElem?_append_left (by rw [hf]; omega)]; simp
    | succ i =>
      rw [List.getElem?_append_right (by rw [hf, Nat.mul_succ]; omega), hf,
        show k * (i + 1) + j - k = k * i + j by rw [Nat.mul_succ]; omega, ih i]
      rfl

/-- S-DATA on the wire: write ID 101, the address, the nibble, two zeros (rule R98). -/
theorem sData_eq_append (a : BitVec 7) (nib : BitVec 4) :
    sData a nib = (0b101 : BitVec 3) ++ a ++ nib ++ (0 : BitVec 2) := by
  apply BitVec.eq_of_getLsbD_eq
  intro i hi
  rw [BitVec.getLsbD_append, BitVec.getLsbD_append, BitVec.getLsbD_append]
  interval_cases i <;> simp [sData]

theorem bitsMsbFirst_sData (a : BitVec 7) (nib : BitVec 4) :
    bitsMsbFirst (sData a nib) =
      [true, false, true] ++ bitsMsbFirst a ++ (bitsMsbFirst nib ++ [false, false]) := by
  rw [sData_eq_append, bitsMsbFirst_append, bitsMsbFirst_append, bitsMsbFirst_append, List.append_assoc]
  rfl

/-! ### The chip while a frame is clocked in (rules R66, R73, R260) -/

theorem Chip.receive_nil (c : Chip) : c.receive [] = c := rfl

/-- A write frame stores its nibbles and gives no command. -/
theorem Chip.receive_write (c : Chip) {addr : List Bool} (ha : addr.length = 7) (data : List Bool) :
    c.receive ([true, false, true] ++ addr ++ data) =
      { c with ram := writeNibbles c.ram (bitsToNat addr) data } := by
  have hdrop : ([true, false, true] ++ addr ++ data).drop 3 = addr ++ data := rfl
  have hten : ([true, false, true] ++ addr ++ data).drop 10 = data := List.drop_left' (by simp [ha])
  rw [Chip.receive, if_pos ⟨rfl, by simp [ha]⟩, hdrop, hten, List.take_left' ha]

/-- Of a write frame cut after `m` bits the receiver stores the complete nibbles, and it gives no command. -/
theorem Chip.receive_take_write (c : Chip) {addr : List Bool} (ha : addr.length = 7) (data : List Bool) (m : Nat) :
    c.receive (([true, false, true] ++ addr ++ data).take m) =
      { c with ram := writeNibbles c.ram (bitsToNat addr) (data.take (m - 10)) } := by
  have hlength : ([true, false, true] ++ addr).length = 10 := by simp [ha]
  by_cases hm : 10 ≤ m
  · rw [List.take_append, List.take_of_length_le (hlength.trans_le hm), hlength, c.receive_write ha]
  · have hid : (([true, false, true] ++ addr ++ data).take m).take 3 = [true, false, true].take m := by
      rw [List.take_take, Nat.min_comm, ← List.take_take]
      rfl
    have hnot : [true, false, true].take m ≠ [true, false, false] := by
      match m with
      | 0 | 1 | 2 => simp
      | m + 3 => simp
    have hshort : ¬ 10 ≤ (([true, false, true] ++ addr ++ data).take m).length := by
      rw [List.length_take]
      omega
    rw [Chip.receive, hid, if_neg fun h => hshort h.2, if_neg hnot, Nat.sub_eq_zero_of_le (by omega), List.take_zero]
    rfl

theorem Chip.receiveAll_concat (c : Chip) (fs : List (List Bool)) (f : List Bool) :
    c.receiveAll (fs ++ [f]) = (c.receiveAll fs).receive f := by
  rw [Chip.receiveAll, List.foldl_append]
  rfl

/-- A whole GPIO frame latches its bits as one closed frame (rule R141). -/
theorem Latch.foldl_gpioFrame (bits : List Bool) {l : Latch} (h : l.csN = true) :
    ((gpioFrame bits).foldl Latch.after l).csN = true ∧
      ((gpioFrame bits).foldl Latch.after l).frames = l.frames ++ [bits] := by
  obtain ⟨d, w, hbits⟩ := Latch.foldl_gpioBits bits { l with csN := false, current := [] } rfl
  have hopen : [Event.dir .out, .pin .csN false].foldl Latch.after l = { l with csN := false, current := [] } := by
    simp [Latch.after, h]
  rw [gpioFrame, List.foldl_append, List.foldl_append, hopen, hbits]
  simp [Latch.after]

/-- After the first `n` events of a GPIO frame the chip has received the bits latched by them. -/
theorem Latch.chip_take_gpioFrame (bits : List Bool) {l : Latch} (h : l.csN = true) (n : Nat) :
    (((gpioFrame bits).take n).foldl Latch.after l).chip = l.chip.receive (bits.take ((n - 2) / 3)) := by
  rw [Latch.chip_of_closed h]
  by_cases hn : n ≤ 3 * bits.length + 2
  · obtain ⟨hbefore, hinside⟩ := Latch.foldl_take_gpioFrame bits l h n hn
    by_cases h2 : 2 ≤ n
    · obtain ⟨hcs, hframes, hcurrent⟩ := hinside h2
      rw [Latch.chip_of_open hcs, hframes, hcurrent]
    · rw [hbefore (by omega), Latch.chip_of_closed h, show (n - 2) / 3 = 0 by omega, List.take_zero, Chip.receive_nil]
  · obtain ⟨hcs, hframes⟩ := Latch.foldl_gpioFrame bits h
    rw [List.take_of_length_le (by rw [length_gpioFrame]; omega), List.take_of_length_le (by omega),
      Latch.chip_of_closed hcs, hframes, Chip.receiveAll_concat]

/-- A whole SPI transaction latches its word as one closed frame (rules R141, R142). -/
theorem Latch.foldl_spiTxn (w : Word) {l : Latch} (h : l.csN = true) :
    ((spiTxn w).foldl Latch.after l).csN = true ∧
      ((spiTxn w).foldl Latch.after l).frames = l.frames ++ [bitsMsbFirst w] := by
  rw [← bitsMsbFirst_word]
  simp [spiTxn, Latch.after, h]

/-- After the first `n` events of an SPI transaction the chip has received the bits of the bytes sent. -/
theorem Latch.chip_take_spiTxn (w : Word) {l : Latch} (h : l.csN = true) (n : Nat) :
    (((spiTxn w).take n).foldl Latch.after l).chip = l.chip.receive ((bitsMsbFirst w).take (8 * (n - 1))) := by
  rw [Latch.chip_of_closed h]
  obtain rfl | hpart | hwhole : n = 0 ∨ (1 ≤ n ∧ n ≤ 3) ∨ 4 ≤ n := by omega
  · exact Latch.chip_of_closed h
  · obtain ⟨hcs, hframes, hcurrent⟩ := Latch.foldl_take_spiTxn w l h n hpart.1 hpart.2
    rw [Latch.chip_of_open hcs, hframes, hcurrent]
  · obtain ⟨hcs, hframes⟩ := Latch.foldl_spiTxn w h
    rw [List.take_of_length_le (show (spiTxn w).length ≤ n from hwhole),
      List.take_of_length_le (by rw [length_bitsMsbFirst]; omega), Latch.chip_of_closed hcs, hframes,
      Chip.receiveAll_concat]

/-- Of a write frame's data cut after `m` bits, the nibbles that are complete go to successive addresses. -/
theorem writeNibbles_take_apply {data : List Bool} {base : Nat} (hb : base + data.length / 4 ≤ 128) (m : Nat)
    (ram : Nat → Nat → Option Bool) (a d : Nat) :
    writeNibbles ram base (data.take m) a d =
      if base ≤ a ∧ 4 * (a - base) + 4 ≤ min m data.length ∧ d < 4 then some (data.getD (4 * (a - base) + d) false)
      else ram a d := by
  rw [writeNibbles_apply rfl (by rw [List.length_take]; omega), List.length_take]
  by_cases hnew : base ≤ a ∧ 4 * (a - base) + 4 ≤ min m data.length ∧ d < 4
  · rw [if_pos hnew, if_pos (by omega), List.getD_eq_getElem?_getD, List.getElem?_take_of_lt (by omega),
      ← List.getD_eq_getElem?_getD]
  · rw [if_neg hnew, if_neg (by omega)]

/-! ### FLUSH and the chip (rules R65, R73, R103, R104) -/

/-- Bit D(d) of chip address a as FLUSH writes it: four columns to an address, four addresses to a row (rule R65). -/
def Framebuffer.chipBit (fb : Framebuffer) (a d : Nat) : Bool := fb.pixel (4 * (a % 4) + d) (a / 4)

/-- Which event of FLUSH, counted from 1, latches the last bit of the nibble for chip address a. -/
def nibbleEnd (b : Backend) (a : Nat) : Nat :=
  match b with
  | .gpio => 44 + 12 * a
  | .spi => 4 * a + 3

/-- The chip `c` once the first `n` events of a FLUSH of `fb` are sent: of the nibbles for the first `k` addresses,
those whose last bit is among them are new. -/
def Chip.flushed (c : Chip) (fb : Framebuffer) (k n : Nat) : Chip :=
  { c with ram := fun a d =>
      if a < k ∧ d < 4 ∧ nibbleEnd fb.backend a ≤ n then some (fb.chipBit a d) else c.ram a d }

theorem Chip.flushed_ram (c : Chip) (fb : Framebuffer) (k n a d : Nat) :
    (c.flushed fb k n).ram a d =
      if a < k ∧ d < 4 ∧ nibbleEnd fb.backend a ≤ n then some (fb.chipBit a d) else c.ram a d := rfl

theorem Chip.flushed_zero (c : Chip) (fb : Framebuffer) (n : Nat) : c.flushed fb 0 n = c := by
  simp [Chip.flushed]

theorem Chip.flushed_succ_of_short (c : Chip) (fb : Framebuffer) {k n : Nat} (h : n < nibbleEnd fb.backend k) :
    c.flushed fb (k + 1) n = c.flushed fb k n := by
  unfold Chip.flushed
  congr 1
  funext a d
  refine if_congr ⟨fun ⟨ha, hd, hn⟩ => ⟨?_, hd, hn⟩, fun ⟨ha, hd, hn⟩ => ⟨by omega, hd, hn⟩⟩ rfl rfl
  have hne : a ≠ k := fun hak => absurd hn (by rw [hak]; omega)
  omega

theorem Chip.flushed_succ_of_sent (c : Chip) (fb : Framebuffer) {k n : Nat} (h : nibbleEnd fb.backend k ≤ n) :
    c.flushed fb (k + 1) n =
      { c.flushed fb k n with ram := fun a d =>
          if a = k ∧ d < 4 then some (fb.chipBit a d) else (c.flushed fb k n).ram a d } := by
  unfold Chip.flushed
  congr 1
  funext a d
  by_cases ha : a = k
  · subst ha
    simp [h]
  · simp [ha, show a < k + 1 ↔ a < k by omega]

/-- The row words in transmit order hold bit D(d) of address a at place 4a + d. -/
theorem getD_rowBits (w : Vector Word 12) {a d : Nat} (ha : a < 48) (hd : d < 4) :
    (w.toList.flatMap bitsMsbFirst).getD (4 * a + d) false = (Framebuffer.gpio w).chipBit a d := by
  have hplace : 4 * a + d = 16 * (a / 4) + (4 * (a % 4) + d) := by omega
  have hcol : 4 * (a % 4) + d < 16 := by omega
  have hrow : w.toList[a / 4]? = some (rowWord w (a / 4)) := by
    simp [rowWord, show a / 4 < 12 by omega]
  rw [List.getD_eq_getElem?_getD, hplace, getElem?_flatMap_of_length length_bitsMsbFirst _ _ hcol, hrow,
    Option.bind_some, ← List.getD_eq_getElem?_getD, getD_bitsMsbFirst _ hcol, BitVec.getMsbD_eq_getLsbD,
    decide_eq_true hcol, Bool.true_and]
  rfl

/-- The nibble of transaction a holds bit D(d) at place d. -/
theorem getD_nibbleBits (b : Vector Byte 24) (a : Nat) {d : Nat} (hd : d < 4) :
    (bitsMsbFirst (fbNibble b a)).getD d false = (Framebuffer.spi b).chipBit a d := by
  rw [getD_bitsMsbFirst _ hd, Framebuffer.chipBit, Framebuffer.pixel, pixelIndex_div _ _ (by omega), pixelIndex_mod,
    show 2 * (a / 4) + (4 * (a % 4) + d) / 8 = a / 2 by omega,
    show bitpos ((4 * (a % 4) + d) % 8) = 4 * (a % 2) + (3 - d) by unfold bitpos; omega, fbNibble,
    BitVec.getMsbD_eq_getLsbD]
  simp [hd]
  omega

theorem length_rowBits (w : Vector Word 12) : (w.toList.flatMap bitsMsbFirst).length = 192 := by
  simp [List.length_flatMap, length_bitsMsbFirst]

/-- GPIO: the first `n` events of the one frame of FLUSH. -/
theorem chip_take_flush_gpio (w : Vector Word 12) {l : Latch} (h : l.csN = true) (n : Nat) :
    (((flushEvents (.gpio w)).take n).foldl Latch.after l).chip = l.chip.flushed (.gpio w) 48 n := by
  rw [flushEvents, Latch.chip_take_gpioFrame _ h, gWrHeader, Chip.receive_take_write _ rfl, Chip.flushed]
  congr 1
  funext a d
  rw [show bitsToNat (List.replicate 7 false) = 0 from rfl, writeNibbles_take_apply (by rw [length_rowBits]; decide),
    length_rowBits, Nat.sub_zero, Framebuffer.backend]
  by_cases hnew : a < 48 ∧ d < 4 ∧ nibbleEnd .gpio a ≤ n
  · rw [if_pos hnew]
    obtain ⟨ha, hd, hn⟩ := hnew
    rw [nibbleEnd] at hn
    rw [if_pos (by omega), getD_rowBits w ha hd]
  · rw [if_neg hnew]
    rw [nibbleEnd] at hnew
    rw [if_neg (by omega)]

/-- The receiver stores the nibble of an S-DATA transaction when its low byte, the third event, is sent. -/
theorem Chip.receive_take_sData (c : Chip) {a : Nat} (ha : a < 128) (nib : BitVec 4) (n : Nat) :
    c.receive ((bitsMsbFirst (sData (BitVec.ofNat 7 a) nib)).take (8 * (n - 1))) =
      { c with ram := fun b d =>
          if 3 ≤ n ∧ b = a ∧ d < 4 then some ((bitsMsbFirst nib).getD d false) else c.ram b d } := by
  have hlength : (bitsMsbFirst nib ++ [false, false]).length = 6 := by simp [length_bitsMsbFirst]
  rw [bitsMsbFirst_sData, Chip.receive_take_write _ (length_bitsMsbFirst _), bitsToNat_bitsMsbFirst,
    BitVec.toNat_ofNat, Nat.mod_eq_of_lt ha]
  congr 1
  funext b d
  rw [writeNibbles_take_apply (by rw [hlength]; omega), hlength]
  by_cases hnew : 3 ≤ n ∧ b = a ∧ d < 4
  · obtain ⟨hn, rfl, hd⟩ := hnew
    rw [if_pos (by omega), if_pos ⟨hn, rfl, hd⟩, Nat.sub_self, Nat.mul_zero, Nat.zero_add,
      List.getD_append _ _ _ _ (by rw [length_bitsMsbFirst]; exact hd)]
  · rw [if_neg hnew, if_neg (by omega)]

/-- The first `k` transactions of a FLUSH. -/
def flushTxns (b : Vector Byte 24) (k : Nat) : List Event :=
  (List.range k).flatMap fun a => sendNib a (fbNibble b a)

theorem flushTxns_succ (b : Vector Byte 24) (k : Nat) :
    flushTxns b (k + 1) = flushTxns b k ++ sendNib k (fbNibble b k) := by
  simp [flushTxns, List.range_succ]

theorem length_flushTxns (b : Vector Byte 24) (k : Nat) : (flushTxns b k).length = 4 * k := by
  induction k with
  | zero => rfl
  | succ k ih => rw [flushTxns_succ, List.length_append, ih]; rfl

theorem csN_foldl_flushTxns (b : Vector Byte 24) (k : Nat) {l : Latch} (h : l.csN = true) :
    ((flushTxns b k).foldl Latch.after l).csN = true := by
  induction k with
  | zero => exact h
  | succ k ih =>
    rw [flushTxns_succ, List.foldl_append]
    exact (Latch.foldl_spiTxn _ ih).1

/-- One transaction more, sent up to its `n`-th event. -/
theorem chip_take_sendNib (b : Vector Byte 24) {k : Nat} (hk : k < 128) {l : Latch} (h : l.csN = true) (n : Nat) :
    (((sendNib k (fbNibble b k)).take n).foldl Latch.after l).chip =
      { l.chip with ram := fun a d =>
          if 3 ≤ n ∧ a = k ∧ d < 4 then some ((Framebuffer.spi b).chipBit a d) else l.chip.ram a d } := by
  rw [sendNib, Latch.chip_take_spiTxn _ h, Chip.receive_take_sData _ hk]
  congr 1
  funext a d
  refine ite_congr rfl (fun ⟨_, ha, hd⟩ => ?_) fun _ => rfl
  rw [getD_nibbleBits b k hd, ha]

/-- SPI: the first `n` events of the first `k` transactions of FLUSH. -/
theorem chip_take_flushTxns (b : Vector Byte 24) {k : Nat} (hk : k ≤ 128) {l : Latch} (h : l.csN = true) (n : Nat) :
    (((flushTxns b k).take n).foldl Latch.after l).chip = l.chip.flushed (.spi b) k n := by
  induction k with
  | zero => rw [Chip.flushed_zero]; simp [flushTxns]
  | succ k ih =>
    have ih := ih (by omega)
    rw [flushTxns_succ, List.take_append, List.foldl_append, length_flushTxns]
    by_cases hn : 4 * k ≤ n
    · rw [List.take_of_length_le (by rw [length_flushTxns]; exact hn)] at ih ⊢
      rw [chip_take_sendNib b (by omega) (csN_foldl_flushTxns b k h), ih]
      by_cases hsent : 4 * k + 3 ≤ n
      · rw [Chip.flushed_succ_of_sent _ _ (by exact hsent)]
        simp [show 3 ≤ n - 4 * k by omega]
      · rw [Chip.flushed_succ_of_short _ _ (by exact Nat.lt_of_not_le hsent)]
        simp [show ¬ 3 ≤ n - 4 * k by omega]
    · rw [Nat.sub_eq_zero_of_le (by omega), List.take_zero, List.foldl_nil, ih,
        Chip.flushed_succ_of_short _ _ (show n < 4 * k + 3 by omega)]

/-- The chip after the first `n` events of FLUSH, in either backend. -/
theorem chip_take_flushEvents (fb : Framebuffer) {l : Latch} (h : l.csN = true) (n : Nat) :
    (((flushEvents fb).take n).foldl Latch.after l).chip = l.chip.flushed fb 48 n := by
  cases fb with
  | gpio w => exact chip_take_flush_gpio w h n
  | spi b => exact chip_take_flushTxns b (by decide) h n

theorem nibbleEnd_le_length_flushEvents (fb : Framebuffer) {a : Nat} (ha : a < 48) :
    nibbleEnd fb.backend a ≤ (flushEvents fb).length := by
  cases fb with
  | gpio w =>
    rw [flushEvents, length_gpioFrame, List.length_append, length_rowBits, gWrHeader, Framebuffer.backend, nibbleEnd]
    simp
    omega
  | spi b =>
    rw [show flushEvents (.spi b) = flushTxns b 48 from rfl, length_flushTxns, Framebuffer.backend, nibbleEnd]
    omega

/-- What stands at the address and bit of pixel (x, y): the pixel, and 0 in the padding (rules R61, R65). -/
theorem Framebuffer.chipBit_of_pixel {fb : Framebuffer} (h : fb.paddingZero = true) {x y : Nat} (hx : x < 16)
    (hy : y < 12) : fb.chipBit (4 * y + x / 4) (x % 4) = (decide (x < 12) && fb.pixel x y) := by
  rw [Framebuffer.chipBit, show 4 * ((4 * y + x / 4) % 4) + x % 4 = x by omega,
    show (4 * y + x / 4) / 4 = y by omega]
  by_cases hc : x < 12
  · simp [hc]
  · rw [(Framebuffer.paddingZero_iff fb).mp h x y (by omega) hx hy, Bool.and_false]

theorem nibbleEnd_le_iff (b : Backend) (a n : Nat) :
    nibbleEnd b a ≤ n ↔ (b = .gpio ∧ 44 + 12 * a ≤ n) ∨ (b = .spi ∧ 4 * a + 3 ≤ n) := by
  cases b <;> simp [nibbleEnd]

/-- FLUSH leaves the chip with the nibbles that the pace let through (rules R36, R73). -/
theorem chip_of_flush {s t : State} (ha : s.Accepting) (ho : s.OutputInv) (h : exec .flush s = .next t) :
    t.chip = s.chip.flushed s.fb 48 (s.pace.accepts (flushEvents s.fb).length) := by
  rw [exec_of_accepted ha.toOpen (fun _ => ha.2.2) rfl] at h
  obtain rfl := Host.Outcome.next.inj h
  have htrace := (requestRun_outputs .flush { s with opr := encode .flush }).1
  rw [State.chip_of_append (s := s) htrace (State.launch_resetMark _ _ _) ho.mark]
  exact chip_take_flushEvents s.fb (State.sinceReset_csN ho ha.2.1) _

/-- Settles O37: the chip has the complete nibbles of what was sent, and the nibbles hold the grid with its padding. -/
theorem flushPutsGridIntoChip : Obligations.FlushPutsGridIntoChip := by
  intro s t ha hs ho h
  have hpad : s.fb.paddingZero = true := hs.padding ha.2.2
  rw [chip_of_flush ha ho h]
  refine ⟨fun hp x y hx hy => ?_, fun n hp x y hx hy => ?_, fun a d ha48 => ?_, rfl⟩
  · have haddr : 4 * y + x / 4 < 48 := by omega
    rw [hp, Chip.flushed_ram, if_pos ⟨haddr, by omega, nibbleEnd_le_length_flushEvents s.fb haddr⟩,
      Framebuffer.chipBit_of_pixel hpad hx hy]
  · rw [hp, Chip.flushed_ram, Framebuffer.chipBit_of_pixel hpad hx hy]
    refine if_congr ?_ rfl rfl
    rw [← nibbleEnd_le_iff]
    exact ⟨fun ⟨_, _, hn⟩ => hn, fun hn => ⟨by omega, by omega, hn⟩⟩
  · rw [Chip.flushed_ram, if_neg (by omega)]

end Sys2Proof.Machine

/-! The proofs about the request byte and the program lines. A byte is its two fields, so what it decodes to fixes it.
A line's operand writes are stored one after another, and its request leaves the operands as they are. -/

namespace Sys2Proof.Machine

/-! ### The fields of a request byte (rules R23, R90) -/

theorem toNat_opField (b : Byte) : (opField b).toNat = b.toNat / 16 := by
  have := b.isLt
  rw [opField, BitVec.extractLsb'_toNat, Nat.shiftRight_eq_div_pow]
  omega

theorem toNat_selField (b : Byte) : (selField b).toNat = b.toNat % 16 := by
  rw [selField, BitVec.extractLsb'_toNat, Nat.shiftRight_zero]

theorem opField_append_selField (b : Byte) : opField b ++ selField b = b := by
  apply BitVec.eq_of_getLsbD_eq
  intro k hk
  rw [BitVec.getLsbD_append]
  by_cases h : k < 4
  · simp [selField, h]
  · simp [opField, h, show k - 4 < 4 by omega, show 4 + (k - 4) = k by omega]

/-! ### What a byte decodes to (rules R91, R92, R105) -/

theorem decodePlain_eq_request {i j : Instr} {sel : BitVec 4} (h : decodePlain j sel = .request i) :
    sel = 0 ∧ i = j := by
  unfold decodePlain at h
  split at h
  · next hsel => exact ⟨hsel, (Decoded.request.inj h).symm⟩
  · exact Decoded.noConfusion h

theorem decodeSelector_eq_request {i : Instr} {sel : BitVec 4} (h : decodeSelector sel = .request i) :
    encodeOp i = 0x7 ∧ sel = encodeSel i := by
  unfold decodeSelector at h
  split at h
  case h_14 => exact Decoded.noConfusion h
  all_goals
    next hsel =>
      obtain rfl := Decoded.request.inj h
      exact ⟨rfl, BitVec.eq_of_toNat_eq hsel⟩

/-- The decoder reads a request off its two fields. -/
theorem fields_of_decode {b : Byte} {i : Instr} (h : decode b = .request i) :
    opField b = encodeOp i ∧ selField b = encodeSel i := by
  unfold decode at h
  split at h
  case h_7 hop =>
    obtain ⟨hcmd, hsel⟩ := decodeSelector_eq_request h
    exact ⟨(BitVec.eq_of_toNat_eq hop).trans hcmd.symm, hsel⟩
  case h_12 => exact Decoded.noConfusion h
  all_goals
    next hop =>
      obtain ⟨hsel, rfl⟩ := decodePlain_eq_request h
      exact ⟨BitVec.eq_of_toNat_eq hop, hsel⟩

theorem eq_encode_of_decode {b : Byte} {i : Instr} (h : decode b = .request i) : b = encode i := by
  obtain ⟨hop, hsel⟩ := fields_of_decode h
  rw [encode, ← hop, ← hsel, opField_append_selField]

/-- Settles O1: the tables of rules R90 and R92, row by row. -/
theorem decodeReadsEncodedRequest : Obligations.DecodeReadsEncodedRequest := fun i _ => decode_encode i

/-- Settles O2: the fields of the byte are those of the request. -/
theorem decodeAcceptsOnlyEncodedBytes : Obligations.DecodeAcceptsOnlyEncodedBytes := fun _ _ => eq_encode_of_decode

theorem not_reservedByte_encode (i : Instr) : ¬ ReservedByte (encode i) := by
  unfold ReservedByte
  cases i <;> decide

theorem decodeSelector_of_lt {sel : BitVec 4} (h : sel.toNat < 0xD) : ∃ i, decodeSelector sel = .request i := by
  unfold decodeSelector
  interval_cases sel.toNat <;> exact ⟨_, rfl⟩

theorem decodePlain_of_zero {sel : BitVec 4} (h : sel.toNat = 0) (i : Instr) : decodePlain i sel = .request i :=
  if_pos (BitVec.eq_of_toNat_eq h)

/-- An op from 0x1 to 0xB with a selector that rules R91 and R92 allow it is a request. -/
theorem decode_of_not_reserved {b : Byte} (h : ¬ ReservedByte b) : ∃ i, decode b = .request i := by
  unfold ReservedByte at h
  rw [← toNat_opField, ← toNat_selField] at h
  unfold decode
  by_cases hcmd : (opField b).toNat = 7
  · rw [hcmd]
    exact decodeSelector_of_lt (by omega)
  · have hsel : (selField b).toNat = 0 := by omega
    simp only [decodePlain_of_zero hsel]
    obtain ⟨hlo, hhi⟩ | ⟨hlo, hhi⟩ : (1 ≤ (opField b).toNat ∧ (opField b).toNat < 7) ∨
        (8 ≤ (opField b).toNat ∧ (opField b).toNat < 0xC) := by omega
    all_goals interval_cases (opField b).toNat <;> exact ⟨_, rfl⟩

/-- Settles O3: no request's byte is reserved, and every other byte is a request's. -/
theorem reservedValuesDecodeToNoRequest : Obligations.ReservedValuesDecodeToNoRequest := by
  refine fun b => ⟨fun hres i hd => ?_, fun hnone => ?_⟩
  · rw [eq_encode_of_decode hd] at hres
    exact not_reservedByte_encode i hres
  · by_contra hres
    obtain ⟨i, hd⟩ := decode_of_not_reserved hres
    exact hnone i hd

/-- Settles O4: each byte is written out from its row of rules R90 and R92. -/
theorem writtenOutBytesDecode : Obligations.WrittenOutBytesDecode := ⟨rfl, rfl, rfl, rfl, rfl, rfl, rfl⟩

/-! ### The request of a program line (rules R92, R109) -/

/-- The request that a line's byte stands for. -/
def AsmLine.request : AsmLine → Instr
  | .init => .init
  | .flush => .flush
  | .cmd sel => (commandTable[sel]).1
  | .set _ _ _ => .set
  | .get _ _ => .get
  | .fill _ => .fill
  | .bright _ => .bright
  | .find _ => .find
  | .drawg _ _ _ => .drawg
  | .text _ _ _ => .text
  | .width _ => .width

theorem AsmLine.oprByte_eq_encode (l : AsmLine) : l.oprByte = encode l.request := by
  cases l
  case cmd sel => fin_cases sel <;> rfl
  all_goals rfl

/-- A request that an open block takes leaves its byte in OPR, whether it runs or raises a fault (rules R23, R222). -/
theorem exec_opr_of_open {i : Instr} {s t : State} (ho : s.Open) (h : exec i s = .next t) : t.opr = encode i := by
  obtain ⟨hf, -⟩ | ⟨-, hb, -⟩ | ⟨-, -, -, rfl⟩ | ⟨-, -, -, rfl⟩ | ⟨-, -, -, rfl⟩ := exec_cases h
  · exact absurd ho.1 hf
  · exact absurd (hb.symm.trans ho.2) Bool.noConfusion
  · rfl
  · rfl
  · exact State.launch_opr ..

/-- A line is read off the operand registers, and no request changes them (rules R24, R93). -/
theorem exec_lineOf {i : Instr} {s t : State} (h : exec i s = .next t) (j : Instr) : t.lineOf j = s.lineOf j := by
  obtain ⟨hA, hB, hV, hC, htxt, hlen, -, -⟩ := requestsKeepOperandAndResultRegisters i s t h
  unfold State.lineOf State.operandText
  rw [hA, hB, hV, hC, htxt, hlen]

/-! ### A run of operand writes (rules R38, R77, R221) -/

/-- The writes `ws` stored, first write first. -/
def storeAll (ws : List HostWrite) (s : State) : State := ws.foldl (fun t w => storeOperand w t) s

theorem storeAll_append (ws ws' : List HostWrite) (s : State) :
    storeAll (ws ++ ws') s = storeAll ws' (storeAll ws s) := List.foldl_append

theorem storeOperand_with_inputs (w : HostWrite) (s : State) (xs : List Input) :
    storeOperand w { s with inputs := xs } = { storeOperand w s with inputs := xs } := by
  cases w <;> rfl

theorem storeOperand_open {s : State} (h : s.Open) (w : HostWrite) : (storeOperand w s).Open := by
  cases w <;> exact h

theorem storeAll_open {s : State} (h : s.Open) (ws : List HostWrite) : (storeAll ws s).Open := by
  induction ws generalizing s with
  | nil => exact h
  | cons w ws ih => exact ih (storeOperand_open h w)

/-- The write is to an operand register that exists, in a block with `cap` text cells: OPR is the one host-writable
register that is no operand. -/
def HostWrite.Stores (cap : Nat) (w : HostWrite) : Prop := (∀ v, w ≠ .opr v) ∧ w.Writable cap

/-- In an open block each operand write takes one step and is stored. -/
theorem run_storeAll {ws : List HostWrite} {s : State} (ho : s.Open) (hw : ∀ w ∈ ws, w.Stores s.cfg.textMax)
    (rest : List Input) :
    Sys2Proof.core.run ws.length { s with inputs := ws.map .write ++ rest } =
      .next { storeAll ws s with inputs := rest } := by
  induction ws generalizing s with
  | nil => exact run_zero _
  | cons w ws ih =>
    obtain ⟨hopr, hwr⟩ := hw w List.mem_cons_self
    have hstep : step { s with inputs := (w :: ws).map .write ++ rest } =
        .next { storeOperand w s with inputs := ws.map .write ++ rest } := by
      rw [← storeOperand_with_inputs]
      exact step_of_operand ho rfl hopr hwr
    rw [List.length_cons, run_succ_of_next hstep]
    refine ih (storeOperand_open ho w) fun w' hw' => ?_
    rw [storeOperand_cfg]
    exact hw w' (List.mem_cons_of_mem _ hw')

/-- The writes of a line are stored and then its request runs. -/
theorem run_line {s t : State} {l : AsmLine} (ho : s.Open) (hi : s.inputs = [])
    (hw : ∀ w ∈ l.operandWrites, w.Stores s.cfg.textMax)
    (ht : exec l.request { storeAll l.operandWrites s with inputs := [] } = .next t) :
    Sys2Proof.core.run l.writes.length (s.issue l) = .next t := by
  have hissue : s.issue l = { s with inputs := l.operandWrites.map .write ++ [.write (.opr l.oprByte)] } := by
    rw [State.issue, hi, AsmLine.writes, List.map_append]
    rfl
  have hdecode : decode l.oprByte = .request l.request := by rw [l.oprByte_eq_encode, decode_encode]
  rw [AsmLine.writes, List.length_append, hissue, run_add (run_storeAll ho hw _)]
  exact run_one_of_next ((step_of_request rfl hdecode).trans ht)

/-! ### The operands of a line, stored (rules R93, R109) -/

/-- The writes of the first `n` code points of a text. -/
def cellWrites (codes : List CodePoint) (n : Nat) : List HostWrite :=
  (List.range n).map fun i => .txt i (codes.getD i 0)

theorem cellWrites_succ (codes : List CodePoint) (n : Nat) :
    cellWrites codes (n + 1) = cellWrites codes n ++ [.txt n (codes.getD n 0)] := by
  simp [cellWrites, List.range_succ]

theorem textWrites_eq (codes : List CodePoint) :
    textWrites codes = cellWrites codes codes.length ++ [.txtLen (BitVec.ofNat 16 codes.length)] := rfl

/-- The text cells hold the code points written, and nothing but the text buffer changes. -/
theorem storeAll_cellWrites {s : State} (h : TextBuffer.wf s.cfg.textMax s.txt = true) (codes : List CodePoint)
    {n : Nat} (hn : n ≤ s.cfg.textMax) :
    ∃ m : TextBuffer, storeAll (cellWrites codes n) s = { s with txt := m } ∧ TextBuffer.wf s.cfg.textMax m = true ∧
      ∀ j < n, TextBuffer.read m j = codes.getD j 0 := by
  induction n with
  | zero => exact ⟨s.txt, rfl, h, nofun⟩
  | succ n ih =>
    obtain ⟨m, hm, hwf, hread⟩ := ih (by omega)
    refine ⟨TextBuffer.write n (codes.getD n 0) m, ?_, TextBuffer.wf_write hwf hn, fun j hj => ?_⟩
    · rw [cellWrites_succ, storeAll_append, hm]
      rfl
    · rw [TextBuffer.read_write hwf]
      split
      · next hjn => rw [hjn]
      · exact hread j (by omega)

/-- The writes of a text make it the operand text and change no other operand. -/
theorem storeAll_textWrites {s : State} (h : s.StorageInv) {codes : List CodePoint}
    (hfits : codes.length ≤ s.cfg.textMax) :
    (storeAll (textWrites codes) s).operandText = codes ∧ (storeAll (textWrites codes) s).argA = s.argA ∧
      (storeAll (textWrites codes) s).argB = s.argB := by
  obtain ⟨-, -, -, -, hmax, -⟩ := s.cfg.wf_iff.mp h.config
  obtain ⟨m, hm, -, hread⟩ := storeAll_cellWrites h.text codes hfits
  have hstore : storeAll (textWrites codes) s = { s with txt := m, txtLen := BitVec.ofNat 16 codes.length } := by
    rw [textWrites_eq, storeAll_append, hm]
    rfl
  have hlength : (BitVec.ofNat 16 codes.length).toNat = codes.length := by
    rw [BitVec.toNat_ofNat, Nat.mod_eq_of_lt (by omega)]
  rw [hstore]
  refine ⟨?_, rfl, rfl⟩
  rw [State.operandText, hlength]
  refine List.ext_getElem (by simp) fun j hj hj' => ?_
  rw [List.getElem_map, List.getElem_range, hread j hj', List.getD_eq_getElem _ _ hj']

theorem mem_textWrites {codes : List CodePoint} {cap : Nat} (hfits : codes.length ≤ cap) {w : HostWrite}
    (hw : w ∈ textWrites codes) : w.Stores cap := by
  rw [textWrites, List.mem_append, List.mem_singleton, List.mem_map] at hw
  obtain ⟨k, hk, rfl⟩ | rfl := hw
  · exact ⟨nofun, (List.mem_range.mp hk).trans_le hfits⟩
  · exact ⟨nofun, trivial⟩

/-- A line that fits writes operand registers that exist. -/
theorem AsmLine.operandWrites_store {l : AsmLine} {cap : Nat} (hfits : l.Fits cap) :
    ∀ w ∈ l.operandWrites, w.Stores cap := by
  cases l
  case text x0 y0 codes =>
    rw [AsmLine.operandWrites, List.forall_mem_append]
    exact ⟨by simp [HostWrite.Stores, HostWrite.Writable], fun _ => mem_textWrites hfits⟩
  case width codes => exact fun _ => mem_textWrites hfits
  all_goals simp [AsmLine.operandWrites, HostWrite.Stores, HostWrite.Writable]

/-- The line's operands, stored, are read back as the line. -/
theorem lineOf_storeAll {s : State} (h : s.StorageInv) {l : AsmLine} (hfits : l.Fits s.cfg.textMax) :
    (storeAll l.operandWrites s).lineOf l.request = l := by
  cases l
  case cmd sel => fin_cases sel <;> rfl
  case text x0 y0 codes =>
    obtain ⟨htext, hA, hB⟩ :=
      storeAll_textWrites (s := { s with argA := x0, argB := y0 }) ⟨h.config, h.text, h.padding⟩ hfits
    exact congr (congr (congrArg AsmLine.text hA) hB) htext
  case width codes => exact congrArg AsmLine.width (storeAll_textWrites h hfits).1
  all_goals rfl

/-- Settles O7: the operand writes are stored, and the request that the last write starts keeps them. -/
theorem lineWritesReadBackAsLine : Obligations.LineWritesReadBackAsLine := by
  intro s l ho hinv hi hfits
  have hline : (storeAll l.operandWrites s).lineOf l.request = l := lineOf_storeAll hinv hfits
  have hopen : State.Open { storeAll l.operandWrites s with inputs := [] } := storeAll_open ho _
  have hexec := exec_eq_next l.request { storeAll l.operandWrites s with inputs := [] }
  have hopr := exec_opr_of_open hopen hexec
  refine ⟨_, l.request, run_line ho hi (AsmLine.operandWrites_store hfits) hexec, ?_, ?_, ?_⟩
  · rw [hopr, l.oprByte_eq_encode]
  · rw [hopr, decode_encode]
  · rw [exec_lineOf hexec]
    exact hline

end Sys2Proof.Machine

/-! The proofs about the frames on the wire. The format words are their fields one after another, so their bits are the
fields' bits; a request that sends frames sends those alone, and each is of the kind its request allows. -/

namespace Sys2Proof.Machine

/-! ### The format words (rules R95, R97, R98, R103) -/

/-- Transmit order counts the bit positions down from the top (rule R67). -/
theorem bitsMsbFirst_eq_getLsbD {n : Nat} (w : BitVec n) :
    bitsMsbFirst w = (List.range n).map fun k => w.getLsbD (n - 1 - k) := by
  refine List.map_congr_left fun k hk => ?_
  rw [BitVec.getMsbD_eq_getLsbD, decide_eq_true (List.mem_range.mp hk), Bool.true_and]

theorem byteBits_eq_bitsMsbFirst (b : Byte) : byteBits b = bitsMsbFirst b := (bitsMsbFirst_eq_getLsbD b).symm

/-- G-CMD: command ID 100, the command byte, one zero (rule R95). -/
theorem gCmd_eq_append (c : Byte) : gCmd c = (0b100 : BitVec 3) ++ c ++ (0 : BitVec 1) := by
  apply BitVec.eq_of_getLsbD_eq
  intro k hk
  rw [BitVec.getLsbD_append, BitVec.getLsbD_append]
  interval_cases k <;> simp [gCmd]

/-- S-CMD: command ID 100, the command byte, five zeros (rule R97). -/
theorem sCmd_eq_append (c : Byte) : sCmd c = (0b100 : BitVec 3) ++ c ++ (0 : BitVec 5) := by
  apply BitVec.eq_of_getLsbD_eq
  intro k hk
  rw [BitVec.getLsbD_append, BitVec.getLsbD_append]
  interval_cases k <;> simp [sCmd]

theorem bitsMsbFirst_gCmd (c : Byte) : bitsMsbFirst (gCmd c) = [true, false, false] ++ byteBits c ++ [false] := by
  rw [gCmd_eq_append, bitsMsbFirst_append, bitsMsbFirst_append, byteBits_eq_bitsMsbFirst]
  rfl

theorem bitsMsbFirst_sCmd (c : Byte) :
    bitsMsbFirst (sCmd c) = [true, false, false] ++ byteBits c ++ List.replicate 5 false := by
  rw [sCmd_eq_append, bitsMsbFirst_append, bitsMsbFirst_append, byteBits_eq_bitsMsbFirst]
  rfl

theorem sCmd_highByte (c : Byte) : (sCmd c).extractLsb' 8 8 = 0x80 ||| (c >>> 3) := by
  apply BitVec.eq_of_getLsbD_eq
  intro k hk
  interval_cases k <;> simp [sCmd]

theorem sCmd_lowByte (c : Byte) : (sCmd c).extractLsb' 0 8 = (c <<< 5) &&& 0xE0 := by
  apply BitVec.eq_of_getLsbD_eq
  intro k hk
  interval_cases k <;> simp [sCmd]

theorem sendCmd_gpio (c : Byte) : sendCmd .gpio c = gpioFrame ([true, false, false] ++ byteBits c ++ [false]) :=
  congrArg gpioFrame (bitsMsbFirst_gCmd c)

theorem sendCmd_spi (c : Byte) : sendCmd .spi c = spiTxn ((0b100 : BitVec 3) ++ c ++ (0 : BitVec 5)) :=
  congrArg spiTxn (sCmd_eq_append c)

/-- Settles O31: each word is its fields one after another, and a transaction sends the two halves of its word. -/
theorem frameWordsHaveStatedFields : Obligations.FrameWordsHaveStatedFields := by
  refine ⟨fun c => ⟨gCmd_eq_append c, rfl, sendCmd_gpio c⟩, fun c => ⟨sCmd_eq_append c, rfl, ?_⟩,
    fun a nib => ⟨sData_eq_append a nib, rfl, ?_⟩⟩
  · rw [sendCmd, spiTxn, sCmd_highByte, sCmd_lowByte]
  · rw [sendNib, BitVec.ofNat_toNat, BitVec.setWidth_eq]

/-- The PWM command byte of a duty in 0 to 15 (rule R101). -/
theorem pwmByte_of_clamp {v : Int} {p : Nat} (h : clamp v 0 15 = p) (hp : p ≤ 15) :
    pwmByte v = BitVec.ofNat 8 (0xA0 + p) := by
  rw [pwmByte, h, BitVec.ofInt_natCast]
  interval_cases p <;> rfl

/-- The low nibble of a byte for an even address, the high one for an odd address (rule R103). -/
theorem fbNibble_eq_ofNat (b : Vector Byte 24) (a : Nat) :
    fbNibble b a = BitVec.ofNat 4 ((fbByte b (a / 2)).toNat / 16 ^ (a % 2)) := by
  apply BitVec.eq_of_toNat_eq
  rw [fbNibble, BitVec.extractLsb'_toNat, Nat.shiftRight_zero, BitVec.toNat_ushiftRight, Nat.shiftRight_eq_div_pow,
    Nat.pow_mul, BitVec.toNat_ofNat]

/-! ### The requests that send frames and do nothing else (rules R148, R150, R166) -/

/-- The requests whose whole effect is what they send: FLUSH, BRIGHT and the thirteen CMD requests. INIT does more. -/
def frameRequests : List Instr := .flush :: .bright :: commandTable.map Prod.fst

/-- Where the pace covers its end, such a request sends its events and changes nothing else. -/
theorem exec_of_frameRequest {i : Instr} {s : State} (hi : i ∈ frameRequests) (ha : s.Accepting)
    (hp : s.pace.Covers ((requestEvents i s).length + 1)) :
    exec i s = .next (s.afterRequest i (requestEvents i s)) := by
  have hinit : i ≠ .init := by
    rintro rfl
    exact absurd hi (by decide)
  have hkeeps : requestCheck i s = .none ∧ requestFb i s = s.fb ∧ requestFlag i s = s.resFlag ∧
      requestVal i s = s.resVal := by
    cases i
    case set | get | fill | find | drawg | text | width => exact absurd hi (by decide)
    all_goals exact ⟨rfl, rfl, rfl, rfl⟩
  obtain ⟨hcheck, hfb, hflag, hval⟩ := hkeeps
  rw [exec_of_covers hinit ha hcheck hp, requestDone, hfb, hflag, hval]
  rfl

theorem requestEvents_of_command {i : Instr} {c : Byte} (h : (i, c) ∈ commandTable) (s : State) :
    requestEvents i s = sendCmd s.backend c := by
  simp only [commandTable, List.mem_cons, Prod.mk.injEq, List.not_mem_nil, or_false] at h
  obtain ⟨rfl, rfl⟩ | ⟨rfl, rfl⟩ | ⟨rfl, rfl⟩ | ⟨rfl, rfl⟩ | ⟨rfl, rfl⟩ | ⟨rfl, rfl⟩ | ⟨rfl, rfl⟩ | ⟨rfl, rfl⟩ |
    ⟨rfl, rfl⟩ | ⟨rfl, rfl⟩ | ⟨rfl, rfl⟩ | ⟨rfl, rfl⟩ | ⟨rfl, rfl⟩ := h <;> rfl

/-- A request that sends the one command frame of byte `c`: 39 events in GPIO, 4 in SPI (rules R140, R142, R143). -/
theorem exec_of_sendCmd {i : Instr} {c : Byte} {s : State} (hi : i ∈ frameRequests) (ha : s.Accepting)
    (hes : requestEvents i s = sendCmd s.backend c) :
    (s.backend = .gpio → s.pace.Covers 40 →
      exec i s = .next (s.afterRequest i (gpioFrame ([true, false, false] ++ byteBits c ++ [false])))) ∧
    (s.backend = .spi → s.pace.Covers 5 →
      exec i s = .next (s.afterRequest i (spiTxn ((0b100 : BitVec 3) ++ c ++ (0 : BitVec 5))))) := by
  refine ⟨fun hb hp => ?_, fun hb hp => ?_⟩
  · rw [hb, sendCmd_gpio] at hes
    rw [← hes]
    refine exec_of_frameRequest hi ha ?_
    rwa [hes, length_gpioFrame]
  · rw [hb, sendCmd_spi] at hes
    rw [← hes]
    refine exec_of_frameRequest hi ha ?_
    rwa [hes]

/-- Settles O33: a CMD request sends the command frame of its row of rule R92. -/
theorem commandRequestSendsItsFrame : Obligations.CommandRequestSendsItsFrame := by
  intro i c s hic ha
  have hi : i ∈ frameRequests := List.mem_cons_of_mem _ (List.mem_cons_of_mem _ (List.mem_map_of_mem hic))
  exact exec_of_sendCmd hi ha (requestEvents_of_command hic s)

/-- Settles O34: BRIGHT sends the command frame of the PWM byte. -/
theorem brightSendsClampedDuty : Obligations.BrightSendsClampedDuty := by
  intro s p ha hp
  have hclamp : clamp s.operandA 0 15 = p := hp.symm
  have hmax : p ≤ 15 := by split_ifs at hp <;> omega
  rw [← pwmByte_of_clamp hclamp hmax]
  exact exec_of_sendCmd (by decide) ha rfl

/-- The row words, bit 15 first (rule R104). -/
theorem rowBits_eq (w : Vector Word 12) :
    w.toList.flatMap bitsMsbFirst =
      (List.range 12).flatMap fun y => (List.range 16).map fun k => (rowWord w y).getLsbD (15 - k) := by
  have hrows : w.toList = (List.range 12).map (rowWord w) := by
    refine List.ext_getElem (by simp) fun y hy hy' => ?_
    have hlt : y < 12 := by simpa using hy
    simp [rowWord, hlt]
  rw [hrows, List.flatMap_map]
  simp only [bitsMsbFirst_eq_getLsbD]

theorem length_flushEvents_gpio (w : Vector Word 12) : (flushEvents (.gpio w)).length = 609 := by
  rw [flushEvents, length_gpioFrame, List.length_append, length_rowBits]
  rfl

theorem length_flushEvents_spi (b : Vector Byte 24) : (flushEvents (.spi b)).length = 192 := length_flushTxns b 48

theorem exec_flush_of_covers {s : State} {fb : Framebuffer} (ha : s.Accepting) (hfb : s.fb = fb)
    (hp : s.pace.Covers ((flushEvents fb).length + 1)) :
    exec .flush s = .next (s.afterRequest .flush (flushEvents fb)) := by
  subst hfb
  exact exec_of_frameRequest (by decide) ha hp

/-- Settles O35: the frame's bits are the header and the row words. -/
theorem gpioFlushSendsRowWords : Obligations.GpioFlushSendsRowWords := by
  intro s w ha hfb hp
  have hlength := length_flushEvents_gpio w
  refine ⟨flushEvents (.gpio w), exec_flush_of_covers ha hfb (by rwa [hlength]), hlength, ?_⟩
  rw [flushEvents, rowBits_eq, gWrHeader]

/-- Settles O36: transaction a is the S-DATA word of its nibble. -/
theorem spiFlushSendsNibbles : Obligations.SpiFlushSendsNibbles := by
  intro s b ha hfb hp
  have hlength := length_flushEvents_spi b
  refine ⟨flushEvents (.spi b), exec_flush_of_covers ha hfb (by rwa [hlength]), hlength, ?_⟩
  simp only [flushEvents, sendNib, sData_eq_append, fbNibble_eq_ofNat]

/-! ### The frames a request sends (rules R100, R107) -/

/-- Sent from between frames, the events close frames that all satisfy `P`, and end between frames. -/
def SendsOnly (P : List Bool → Prop) (es : List Event) : Prop :=
  ∀ l : Latch, l.csN = true → (es.foldl Latch.after l).csN = true ∧
    ∃ fs, (es.foldl Latch.after l).frames = l.frames ++ fs ∧ ∀ f ∈ fs, P f

theorem SendsOnly.nil (P : List Bool → Prop) : SendsOnly P [] :=
  fun l h => ⟨h, [], l.frames.append_nil.symm, nofun⟩

theorem SendsOnly.append {P : List Bool → Prop} {es es' : List Event} (h : SendsOnly P es) (h' : SendsOnly P es') :
    SendsOnly P (es ++ es') := by
  intro l hl
  obtain ⟨hcs, fs, hfs, hP⟩ := h l hl
  obtain ⟨hcs', fs', hfs', hP'⟩ := h' _ hcs
  rw [List.foldl_append]
  refine ⟨hcs', fs ++ fs', ?_, List.forall_mem_append.mpr ⟨hP, hP'⟩⟩
  rw [hfs', hfs, List.append_assoc]

theorem SendsOnly.flatMap {P : List Bool → Prop} {α : Type} {f : α → List Event} (h : ∀ a, SendsOnly P (f a))
    (l : List α) : SendsOnly P (l.flatMap f) := by
  induction l with
  | nil => exact .nil P
  | cons a rest ih => exact (h a).append ih

theorem SendsOnly.gpioFrame {P : List Bool → Prop} {bits : List Bool} (h : P bits) :
    SendsOnly P (gpioFrame bits) := by
  intro l hl
  obtain ⟨hcs, hframes⟩ := Latch.foldl_gpioFrame bits hl
  exact ⟨hcs, [bits], hframes, List.forall_mem_singleton.mpr h⟩

theorem SendsOnly.spiTxn {P : List Bool → Prop} {w : Word} (h : P (bitsMsbFirst w)) : SendsOnly P (spiTxn w) := by
  intro l hl
  obtain ⟨hcs, hframes⟩ := Latch.foldl_spiTxn w hl
  exact ⟨hcs, [bitsMsbFirst w], hframes, List.forall_mem_singleton.mpr h⟩

/-- The frames that rule R107 lets request i send in a backend. -/
def AllowedFrame (b : Backend) (i : Instr) (f : List Bool) : Prop :=
  (b = .gpio →
    (f.take 3 = [true, false, false] ∧ f.length = 12) ∨
    (f.take 3 = [true, false, true] ∧ i = .flush ∧ f.length = 202) ∨
    (f.take 3 = [true, false, true] ∧ i = .init ∧ f.length = 394)) ∧
  (b = .spi → (f.take 3 = [true, false, false] ∨ f.take 3 = [true, false, true]) ∧ f.length = 16)

theorem allowedFrame_gpio_iff (i : Instr) (f : List Bool) :
    AllowedFrame .gpio i f ↔
      (f.take 3 = [true, false, false] ∧ f.length = 12) ∨
      (f.take 3 = [true, false, true] ∧ i = .flush ∧ f.length = 202) ∨
      (f.take 3 = [true, false, true] ∧ i = .init ∧ f.length = 394) := by
  simp [AllowedFrame]

theorem allowedFrame_spi_iff (i : Instr) (f : List Bool) :
    AllowedFrame .spi i f ↔ (f.take 3 = [true, false, false] ∨ f.take 3 = [true, false, true]) ∧ f.length = 16 := by
  simp [AllowedFrame]

theorem sendsOnly_sendCmd (b : Backend) (i : Instr) (c : Byte) : SendsOnly (AllowedFrame b i) (sendCmd b c) := by
  cases b with
  | gpio =>
    refine .gpioFrame ((allowedFrame_gpio_iff i _).mpr (.inl ⟨?_, length_bitsMsbFirst _⟩))
    rw [bitsMsbFirst_gCmd]
    rfl
  | spi =>
    refine .spiTxn ((allowedFrame_spi_iff i _).mpr ⟨.inl ?_, length_bitsMsbFirst _⟩)
    rw [bitsMsbFirst_sCmd]
    rfl

theorem sendsOnly_sendNib (i : Instr) (a : Nat) (nib : BitVec 4) :
    SendsOnly (AllowedFrame .spi i) (sendNib a nib) := by
  refine .spiTxn ((allowedFrame_spi_iff i _).mpr ⟨.inr ?_, length_bitsMsbFirst _⟩)
  rw [bitsMsbFirst_sData]
  rfl

theorem sendsOnly_flushEvents (fb : Framebuffer) : SendsOnly (AllowedFrame fb.backend .flush) (flushEvents fb) := by
  cases fb with
  | gpio w =>
    refine .gpioFrame ((allowedFrame_gpio_iff _ _).mpr (.inr (.inl ⟨rfl, rfl, ?_⟩)))
    rw [List.length_append, length_rowBits]
    rfl
  | spi b => exact .flatMap (fun a => sendsOnly_sendNib .flush a (fbNibble b a)) _

theorem sendsOnly_clearDisplayEvents (b : Backend) : SendsOnly (AllowedFrame b .init) (clearDisplayEvents b) := by
  cases b with
  | gpio =>
    refine .gpioFrame ((allowedFrame_gpio_iff _ _).mpr (.inr (.inr ⟨rfl, rfl, ?_⟩)))
    rw [List.length_append, List.length_replicate]
    rfl
  | spi => exact .flatMap (fun a => sendsOnly_sendNib .init a 0) _

theorem sendsOnly_requestEvents (i : Instr) (s : State) :
    SendsOnly (AllowedFrame s.backend i) (requestEvents i s) := by
  cases i
  case init => exact (SendsOnly.flatMap (sendsOnly_sendCmd s.backend .init) _).append (sendsOnly_clearDisplayEvents _)
  case flush => exact sendsOnly_flushEvents s.fb
  case set | get | fill | find | drawg | text | width => exact .nil _
  all_goals exact sendsOnly_sendCmd s.backend _ _

/-- Under a free pace an open block's request sends nothing, where it is refused, or all its events. -/
theorem exec_trace_of_free {i : Instr} {s t : State} (ho : s.Open) (hp : s.pace = .free) (h : exec i s = .next t) :
    t.trace = s.trace ∨ t.trace = s.trace ++ requestEvents i s := by
  obtain ⟨hf, -⟩ | ⟨-, hb, -⟩ | ⟨-, -, -, rfl⟩ | ⟨-, -, -, rfl⟩ | ⟨-, -, -, rfl⟩ := exec_cases h
  · exact absurd ho.1 hf
  · exact absurd (hb.symm.trans ho.2) Bool.noConfusion
  · exact .inl rfl
  · exact .inl rfl
  · rw [requestRun_of_free (s := { s with opr := encode i }) i hp, State.finish_trace, State.emit_trace,
      requestEvents_opr_pace]
    exact .inr rfl

/-- For a watcher since the first event too, an idle encoder is between frames (rule R255). -/
theorem State.trace_csN {s : State} (hi : s.OutputInv) (hb : s.busy = false) :
    (s.trace.foldl Latch.after Latch.atReset).csN = true := by
  rw [Latch.csN_foldl _ Latch.atReset Lines.atReset rfl, ← hi.levels]
  exact (hi.levels_of_idle hb).1.symm

/-- Settles O42: the request's events close allowed frames alone, and the output invariant holds RD_N at 1. -/
theorem framesHaveStatedIdAndLength : Obligations.FramesHaveStatedIdAndLength := by
  intro i s t ho hinv hp h
  have hinv' : t.OutputInv := keeps_of_moves Move.outputInv (moves_exec h) hinv
  refine ⟨hinv'.read, ?_⟩
  obtain htrace | htrace := exec_trace_of_free ho hp h
  · rw [htrace]
    exact ⟨[], (List.append_nil _).symm, nofun⟩
  · obtain ⟨-, fs, hframes, hallowed⟩ := sendsOnly_requestEvents i s _ (State.trace_csN hinv ho.2)
    refine ⟨fs, ?_, hallowed⟩
    rw [htrace, latchedFrames, List.foldl_append]
    exact hframes

end Sys2Proof.Machine

/-! The proofs about the framebuffer. A column x < 16 of a row y < 12 names one physical bit of either backend, so what
SET, FILL and the encoders do is said once by the pixel read there. What a silent request does to the grid and to the
result registers it reads off the grid alone, so two blocks that agree on it stay in step. -/

namespace Sys2Proof.Machine

/-! ### Where a column stands in the bytes (rules R125, R126) -/

theorem pixel_spi (b : Vector Byte 24) {x y : Nat} (hx : x < 16) :
    (Framebuffer.spi b).pixel x y = (fbByte b (2 * y + x / 8)).getLsbD (bitpos (x % 8)) := by
  rw [Framebuffer.pixel, pixelIndex_div x y hx, pixelIndex_mod]

/-- Where the byte and the bit of column x are known, the pixel is that bit. -/
theorem pixel_spi_at (b : Vector Byte 24) {x y i k : Nat} (hx : x < 16) (hi : 2 * y + x / 8 = i)
    (hk : 4 * (x % 8 / 4) + 3 - x % 8 % 4 = k) : (Framebuffer.spi b).pixel x y = (fbByte b i).getLsbD k := by
  rw [pixel_spi b hx, bitpos, hi, hk]

/-- Settles O29: byte and bit of each column are those of rule R125. -/
theorem spiBytesHoldColumns : Obligations.SpiBytesHoldColumns := by
  intro b y k hy hk
  refine ⟨pixel_spi_at b ?_ ?_ ?_, pixel_spi_at b ?_ ?_ ?_, pixel_spi_at b ?_ ?_ ?_, pixel_spi_at b ?_ ?_ ?_⟩
  all_goals omega

/-! ### Words and bytes listed in order -/

theorem rowWord_map_range (f : Nat → Word) (h : ((List.range 12).map f).toArray.size = 12) {y : Nat} (hy : y < 12) :
    rowWord ⟨((List.range 12).map f).toArray, h⟩ y = f y := by
  simp [rowWord, hy]

theorem fbByte_map_range (f : Nat → Byte) (h : ((List.range 24).map f).toArray.size = 24) {i : Nat} (hi : i < 24) :
    fbByte ⟨((List.range 24).map f).toArray, h⟩ i = f i := by
  simp [fbByte, hi]

/-! ### FILL (rules R123, R132) -/

/-- FbFill lights the twelve logical columns alone. -/
theorem pixel_fbFill (fb : Framebuffer) (v : Bool) {x y : Nat} (hx : x < 16) (hy : y < 12) :
    (fbFill fb v).pixel x y = (decide (x < 12) && v) := by
  cases fb with
  | gpio w =>
    rw [fbFill, Framebuffer.pixel, rowWord_replicate _ hy]
    revert x v
    decide
  | spi b =>
    rw [fbFill, pixel_spi _ hx, fbByte_map_range _ _ (by omega), Nat.mul_add_mod]
    revert x v
    decide

theorem rowWord_of_fbFill {fb : Framebuffer} {v : Bool} {w : Vector Word 12} (h : fbFill fb v = .gpio w) {y : Nat}
    (hy : y < 12) : rowWord w y = if v = true then 0xFFF0 else 0x0000 := by
  cases fb with
  | gpio _ => rw [← Framebuffer.gpio.inj h, rowWord_replicate _ hy]
  | spi _ => cases h

theorem fbByte_of_fbFill {fb : Framebuffer} {v : Bool} {b : Vector Byte 24} (h : fbFill fb v = .spi b) {i : Nat}
    (hi : i < 24) : fbByte b i = if v = true then (if i % 2 = 0 then 0xFF else 0x0F) else 0x00 := by
  cases fb with
  | gpio _ => cases h
  | spi _ => rw [← Framebuffer.spi.inj h, fbByte_map_range _ _ hi]

/-- Settles O26: the pixels are those of `pixel_fbFill`, and the words and bytes those FbFill lists. -/
theorem fillSetsEveryPixel : Obligations.FillSetsEveryPixel := by
  intro s ha hp
  refine ⟨fbFill s.fb s.argV, exec_of_covers (by decide) ha rfl hp, backend_fbFill ..,
    fun x y => pixel_fbFill s.fb s.argV, fun w hw y => rowWord_of_fbFill hw, fun b hb y hy => ⟨?_, ?_⟩⟩
  · rw [fbByte_of_fbFill hb (by omega), if_pos (Nat.mul_mod_right 2 y)]
  · rw [fbByte_of_fbFill hb (by omega), if_neg (by omega : ¬ (2 * y + 1) % 2 = 0)]

/-! ### SET and GET (rules R120, R121, R130, R131) -/

/-- Settles O23: the accepted request leaves `fbSet`'s framebuffer, which differs in the one bit named. -/
theorem setWritesOnePixel : Obligations.SetWritesOnePixel := by
  intro s ha hp
  exact ⟨fbSet s.fb s.operandA s.operandB s.argV, exec_of_covers (by decide) ha rfl hp, backend_fbSet ..,
    fun x y => pixel_fbSet _ _ _ _⟩

theorem fbGet_of_nat (fb : Framebuffer) {x y : Nat} (hx : x < 12) (hy : y < 12) : fbGet fb x y = fb.pixel x y := by
  rw [fbGet, if_pos ((inb_iff ..).mpr (by omega)), Int.toNat_natCast, Int.toNat_natCast]

theorem fbGet_of_out (fb : Framebuffer) {x y : Int} (h : ¬ (0 ≤ x ∧ x < 12 ∧ 0 ≤ y ∧ y < 12)) :
    fbGet fb x y = false := if_neg (mt (inb_iff x y).mp h)

/-- Settles O24: the accepted request leaves `fbGet`'s answer in RES_FLAG. -/
theorem getReadsPixel : Obligations.GetReadsPixel := by
  intro s ha hp
  refine ⟨fbGet s.fb s.argA.toInt s.argB.toInt, exec_of_covers (by decide) ha rfl hp, ?_, fbGet_of_out s.fb⟩
  intro x y hx hy hA hB
  rw [hA, hB, fbGet_of_nat s.fb hx hy]

/-! ### The layout converter (rules R124, R125, R127) -/

/-- A row word of `encG(P)` holds the twelve pixels of its row, and 0 in the padding columns. -/
theorem pixel_encG (p : Nat → Nat → Bool) {x y : Nat} (hx : x < 16) (hy : y < 12) :
    (Framebuffer.gpio (encG p)).pixel x y = (decide (x < 12) && p x y) := by
  have hgather := getLsbD_gather (fun _ => true) (fun c => p c y) (fun c => 15 - c) (List.range 12) (0#16)
    (k := 15 - x) (by omega)
  simp only [if_true] at hgather
  rw [Framebuffer.pixel, encG, rowWord_map_range _ _ hy]
  refine hgather.trans ?_
  rw [Bool.eq_iff_iff]
  simp only [BitVec.getLsbD_zero, Bool.false_or, Bool.true_and, List.any_eq_true, List.mem_range, Bool.and_eq_true,
    decide_eq_true_eq]
  constructor
  · rintro ⟨c, hc, hlit, hpos⟩
    obtain rfl : c = x := by omega
    exact ⟨hc, hlit⟩
  · rintro ⟨hx12, hlit⟩
    exact ⟨x, hx12, hlit, rfl⟩

/-- No two columns of the layout share a bit. -/
theorem eq_of_same_bit {x y x' y' : Nat} (hx : x < 16) (hx' : x' < 16)
    (hbyte : pixelIndex x' y' / 8 = 2 * y + x / 8) (hbit : bitpos (pixelIndex x' y' % 8) = bitpos (x % 8)) :
    x' = x ∧ y' = y := by
  rw [pixelIndex_div x' y' hx'] at hbyte
  rw [pixelIndex_mod] at hbit
  have hmod := bitpos_inj (Nat.mod_lt _ (by omega)) (Nat.mod_lt _ (by omega)) hbit
  omega

/-- The bytes of `encS(P)` hold the twelve pixels of each row, and 0 in the padding columns. -/
theorem pixel_encS (p : Nat → Nat → Bool) {x y : Nat} (hx : x < 16) (hy : y < 12) :
    (Framebuffer.spi (encS p)).pixel x y = (decide (x < 12) && p x y) := by
  have hgather := getLsbD_gather (fun c : Nat × Nat => decide (pixelIndex c.2 c.1 / 8 = 2 * y + x / 8))
    (fun c => p c.2 c.1) (fun c => bitpos (pixelIndex c.2 c.1 % 8))
    ((List.range 12).flatMap fun y => (List.range 12).map fun x => (y, x)) (0#8)
    (bitpos_lt (Nat.mod_lt x (by omega)))
  simp only [decide_eq_true_eq] at hgather
  rw [pixel_spi _ hx, encS, fbByte_map_range _ _ (by omega), foldl_foldl_eq_foldl_pairs]
  refine hgather.trans ?_
  rw [Bool.eq_iff_iff]
  simp only [BitVec.getLsbD_zero, Bool.false_or, List.any_eq_true, List.mem_flatMap, List.mem_map, List.mem_range,
    Bool.and_eq_true, decide_eq_true_eq]
  constructor
  · rintro ⟨_, ⟨y', -, x', hx', rfl⟩, ⟨hbyte, hlit⟩, hbit⟩
    obtain ⟨rfl, rfl⟩ := eq_of_same_bit hx (by omega) hbyte hbit
    exact ⟨hx', hlit⟩
  · rintro ⟨hx12, hlit⟩
    exact ⟨(y, x), ⟨y, hy, x, hx12, rfl⟩, ⟨pixelIndex_div x y hx, hlit⟩, by rw [pixelIndex_mod]⟩

theorem decG_encG (p : Nat → Nat → Bool) {x y : Nat} (hx : x < 12) (hy : y < 12) : decG (encG p) x y = p x y := by
  rw [decG, pixel_encG p (by omega) hy, decide_eq_true hx, Bool.true_and]

theorem decS_encS (p : Nat → Nat → Bool) {x y : Nat} (hx : x < 12) (hy : y < 12) : decS (encS p) x y = p x y := by
  rw [decS, pixel_encS p (by omega) hy, decide_eq_true hx, Bool.true_and]

/-- Settles O27: each decoder undoes its encoder, so a conversion there and back is two such pairs. -/
theorem layoutConverterRoundTrips : Obligations.LayoutConverterRoundTrips := by
  intro x y hx hy
  refine ⟨fun p => ⟨decS_encS p hx hy, decG_encG p hx hy⟩, fun w => ?_, fun b => ?_⟩
  · rw [decG_encG _ hx hy, decS_encS _ hx hy]
  · rw [decS_encS _ hx hy, decG_encG _ hx hy]

/-- Settles O28: the padding bits are those of columns 12 to 15, which no encoder lights. -/
theorem encodedPaddingIsZero : Obligations.EncodedPaddingIsZero := by
  refine fun p => ⟨(Framebuffer.paddingZero_iff _).mpr fun x y hx hx' hy => ?_,
    (Framebuffer.paddingZero_iff _).mpr fun x y hx hx' hy => ?_⟩
  · rw [pixel_encG p hx' hy, decide_eq_false (by omega), Bool.false_and]
  · rw [pixel_encS p hx' hy, decide_eq_false (by omega), Bool.false_and]

end Sys2Proof.Machine

/-! The proofs about two blocks, one of each backend, that agree on the registers and on the logical grid. The blocks
differ in the framebuffer's layout, the lines and the trace alone, so what does not read these moves both blocks the
same way, and what reads the framebuffer reads the grid. -/

namespace Sys2Proof.Machine

/-! ### The silent requests read and write the grid (rules R120, R121, R123, R195, R196) -/

theorem SameGrid.fbGet_eq {fa fb : Framebuffer} (h : SameGrid fa fb) (x y : Int) : fbGet fa x y = fbGet fb x y := by
  cases hin : inb x y with
  | false => simp [fbGet, hin]
  | true =>
    obtain ⟨hx, hx', hy, hy'⟩ := (inb_iff x y).mp hin
    simp only [fbGet, hin, if_true]
    exact h _ _ (by omega) (by omega)

/-- Two framebuffers of one grid that light the same further pixels are of one grid still. -/
theorem SameGrid.of_lit {fa fb ga gb : Framebuffer} {lit : Nat → Nat → Prop} (h : SameGrid fa fb)
    (ha : ∀ x y : Nat, x < 12 → y < 12 → (ga.pixel x y = true ↔ fa.pixel x y = true ∨ lit x y))
    (hb : ∀ x y : Nat, x < 12 → y < 12 → (gb.pixel x y = true ↔ fb.pixel x y = true ∨ lit x y)) : SameGrid ga gb := by
  intro x y hx hy
  rw [Bool.eq_iff_iff, ha x y hx hy, hb x y hx hy, h x y hx hy]

theorem SameGrid.fbSet {fa fb : Framebuffer} (h : SameGrid fa fb) (x y : Int) (v : Bool) :
    SameGrid (fbSet fa x y v) (fbSet fb x y v) := by
  intro x' y' hx hy
  rw [pixel_fbSet fa x y v (by omega) hy, pixel_fbSet fb x y v (by omega) hy, h x' y' hx hy]

theorem sameGrid_fbFill (fa fb : Framebuffer) (v : Bool) : SameGrid (fbFill fa v) (fbFill fb v) := by
  intro x y hx hy
  rw [pixel_fbFill fa v (by omega) hy, pixel_fbFill fb v (by omega) hy]

theorem SameGrid.drawGlyph {fa fb : Framebuffer} (h : SameGrid fa fb) (font : List Glyph) (x0 y0 : Int) (g : Nat) :
    SameGrid (drawGlyph font x0 y0 g fa) (drawGlyph font x0 y0 g fb) :=
  h.of_lit (fun _ _ hx hy => pixel_drawGlyph font x0 y0 g fa (by omega) hy)
    (fun _ _ hx hy => pixel_drawGlyph font x0 y0 g fb (by omega) hy)

theorem SameGrid.textWalk {fa fb : Framebuffer} (h : SameGrid fa fb) (font : List Glyph) (x0 y0 : Int)
    (text : List CodePoint) : SameGrid (textWalk font x0 y0 text true fa).fb (textWalk font x0 y0 text true fb).fb :=
  h.of_lit (fun _ _ hx hy => pixel_walk font y0 text ⟨x0, 0, fa⟩ (by omega) hy)
    (fun _ _ hx hy => pixel_walk font y0 text ⟨x0, 0, fb⟩ (by omega) hy)

/-! ### A state on the other backend -/

/-- `s` with another framebuffer, other lines and another trace, which are what the two backends differ in. -/
def State.withOutputs (s : State) (fb : Framebuffer) (ls : Lines) (es : List Event) : State :=
  { s with fb := fb, lines := ls, trace := es }

theorem logicallySame_iff {a b : State} :
    LogicallySame a b ↔ a.busy = false ∧ a.pace = .free ∧ a.backend = .gpio ∧
      ∃ fb ls es, fb.backend = .spi ∧ SameGrid a.fb fb ∧ b = a.withOutputs fb ls es := by
  constructor
  · intro h
    exact ⟨h.idle, h.unhindered, h.gpio, b.fb, b.lines, b.trace, h.spi, h.grid, h.rest⟩
  · rintro ⟨hidle, hfree, hgpio, fb, ls, es, hspi, hgrid, rfl⟩
    exact ⟨hgpio, hspi, hgrid, rfl, hidle, hfree⟩

theorem requestCheck_withOutputs (i : Instr) (s : State) (fb : Framebuffer) (ls : Lines) (es : List Event) :
    requestCheck i (s.withOutputs fb ls es) = requestCheck i s := by
  cases i <;> rfl

theorem requestFlag_withOutputs (i : Instr) {s : State} {fb : Framebuffer} (h : SameGrid s.fb fb) (ls : Lines)
    (es : List Event) : requestFlag i (s.withOutputs fb ls es) = requestFlag i s := by
  cases i
  case get => exact (h.fbGet_eq _ _).symm
  all_goals rfl

/-- The width of a text does not depend on what it is drawn into (rule R203). -/
theorem textWalk_w (font : List Glyph) (x0 y0 : Int) (text : List CodePoint) (draw : Bool) (fb : Framebuffer) :
    (textWalk font x0 y0 text draw fb).w = (text.map (advanceOf font)).sum :=
  (walk_w font y0 draw text ⟨x0, 0, fb⟩).trans (Nat.zero_add _)

theorem requestVal_withOutputs (i : Instr) (s : State) (fb : Framebuffer) (ls : Lines) (es : List Event) :
    requestVal i (s.withOutputs fb ls es) = requestVal i s := by
  cases i
  case width => exact congrArg (BitVec.ofNat 32) ((textWalk_w ..).trans (textWalk_w ..).symm)
  all_goals rfl

theorem SameGrid.requestFb (i : Instr) {s : State} {fb : Framebuffer} (h : SameGrid s.fb fb) (ls : Lines)
    (es : List Event) : SameGrid (requestFb i s) (requestFb i (s.withOutputs fb ls es)) := by
  cases i
  case set => exact h.fbSet _ _ _
  case fill => exact sameGrid_fbFill _ _ _
  case drawg => exact h.drawGlyph _ _ _ _
  case text => exact h.textWalk _ _ _ _
  all_goals exact h

/-! ### Two blocks in step (rule R128) -/

/-- An update that reads and writes none of the framebuffer, the lines and the trace, and starts nothing. -/
structure RegisterUpdate (f : State → State) : Prop where
  /-- It commutes with a change of these three. -/
  outputs : ∀ s fb ls es, f (s.withOutputs fb ls es) = (f s).withOutputs fb ls es
  /-- It leaves BUSY. -/
  busy : ∀ s, (f s).busy = s.busy
  /-- It leaves the transport's draw. -/
  pace : ∀ s, (f s).pace = s.pace

theorem registerUpdate_inputs (xs : List Input) : RegisterUpdate fun s => { s with inputs := xs } :=
  ⟨fun _ _ _ _ => rfl, fun _ => rfl, fun _ => rfl⟩

theorem registerUpdate_opr (v : Byte) : RegisterUpdate fun s => { s with opr := v } :=
  ⟨fun _ _ _ _ => rfl, fun _ => rfl, fun _ => rfl⟩

theorem registerUpdate_raiseFault (c : FaultCode) : RegisterUpdate (raiseFault c) :=
  ⟨fun _ _ _ _ => rfl, fun _ => rfl, fun _ => rfl⟩

theorem registerUpdate_storeOperand (w : HostWrite) : RegisterUpdate (storeOperand w) := by
  cases w <;> exact ⟨fun _ _ _ _ => rfl, fun _ => rfl, fun _ => rfl⟩

section
variable {a b : State}

theorem LogicallySame.update {f : State → State} (h : LogicallySame a b) (hf : RegisterUpdate f) :
    LogicallySame (f a) (f b) := by
  rw [logicallySame_iff] at h ⊢
  obtain ⟨hidle, hfree, hgpio, fb, ls, es, hspi, hgrid, rfl⟩ := h
  have hfb : (f a).fb = a.fb := (congrArg State.fb (hf.outputs a a.fb a.lines a.trace) :)
  refine ⟨(hf.busy a).trans hidle, (hf.pace a).trans hfree, (congrArg Framebuffer.backend hfb).trans hgpio, fb, ls, es,
    hspi, ?_, hf.outputs a fb ls es⟩
  rwa [hfb]

theorem LogicallySame.fault_eq (h : LogicallySame a b) : b.fault = a.fault := (congrArg State.fault h.rest :)

theorem LogicallySame.cfg_eq (h : LogicallySame a b) : b.cfg = a.cfg := (congrArg State.cfg h.rest :)

theorem LogicallySame.ready_eq (h : LogicallySame a b) : b.ready = a.ready := (congrArg State.ready h.rest :)

theorem LogicallySame.busy_eq (h : LogicallySame a b) : b.busy = a.busy := (congrArg State.busy h.rest :)

theorem LogicallySame.inputs_eq (h : LogicallySame a b) : b.inputs = a.inputs := (congrArg State.inputs h.rest :)

/-- Both blocks pass checks 1 and 2 of rule R221, or both ignore the write. -/
theorem LogicallySame.hostWritable {f : State → State} (h : LogicallySame a b) (hf : LogicallySame (f a) (f b)) :
    LogicallySame (hostWritable f a) (hostWritable f b) := by
  by_cases hfault : a.fault = .none
  · rwa [hostWritable_of_open ⟨hfault, h.idle⟩,
      hostWritable_of_open ⟨h.fault_eq.trans hfault, h.busy_eq.trans h.idle⟩]
  · rwa [hostWritable_of_fault hfault, hostWritable_of_fault (h.fault_eq ▸ hfault)]

/-- A silent request under a free pace has its effects on the grid and the result registers, and ends. -/
theorem requestRun_of_silent {i : Instr} {s : State} (hi : i ∈ silentRequests) (hfree : s.pace = .free) :
    requestRun i s =
      { s with fb := requestFb i s, resFlag := requestFlag i s, resVal := requestVal i s, busy := false, pending := [],
               closing := .nothing } := by
  rw [requestRun_of_free i hfree, requestEvents_of_silent hi, State.finish]
  simp [requestStart, requestClosing_of_ne_init (ne_init_of_silent hi), State.emit]

theorem LogicallySame.requestRun {i : Instr} (h : LogicallySame a b) (hi : i ∈ silentRequests) :
    LogicallySame (requestRun i a) (requestRun i b) := by
  rw [logicallySame_iff] at h
  obtain ⟨hidle, hfree, hgpio, fb, ls, es, hspi, hgrid, rfl⟩ := h
  rw [requestRun_of_silent hi hfree, requestRun_of_silent (s := a.withOutputs fb ls es) hi hfree,
    requestFlag_withOutputs i hgrid, requestVal_withOutputs, logicallySame_iff]
  exact ⟨rfl, hfree, (backend_requestFb i a).trans hgpio, _, ls, es, (backend_requestFb i _).trans hspi,
    hgrid.requestFb i ls es, rfl⟩

theorem LogicallySame.requestCheck_eq (h : LogicallySame a b) (i : Instr) : requestCheck i b = requestCheck i a := by
  rw [h.rest]
  exact requestCheck_withOutputs ..

/-- Checks 4 to 6 of rule R221 and request i's rule, once OPR holds the request's byte. -/
def requestOrFault (i : Instr) (t : State) : State :=
  if (i != .init) && !t.ready then raiseFault .notInit t
  else if requestCheck i t ≠ .none then raiseFault (requestCheck i t) t
  else requestRun i t

theorem execNext_eq (i : Instr) (s : State) :
    execNext i s = hostWritable (fun s => requestOrFault i { s with opr := encode i }) s := rfl

/-- Both blocks refuse a silent request by the same check, or both run it. -/
theorem LogicallySame.requestOrFault {i : Instr} (h : LogicallySame a b) (hi : i ∈ silentRequests) :
    LogicallySame (requestOrFault i a) (requestOrFault i b) := by
  unfold Machine.requestOrFault
  rw [h.ready_eq, h.requestCheck_eq]
  split_ifs
  · exact h.update (registerUpdate_raiseFault _)
  · exact h.update (registerUpdate_raiseFault _)
  · exact h.requestRun hi

theorem LogicallySame.execNext {i : Instr} (h : LogicallySame a b) (hi : i ∈ silentRequests) :
    LogicallySame (execNext i a) (execNext i b) := by
  rw [execNext_eq, execNext_eq]
  exact h.hostWritable ((h.update (registerUpdate_opr (encode i))).requestOrFault hi)

/-- A register that one block lacks the other lacks too, since they have one configuration. -/
theorem LogicallySame.readRegister {a' : State} {r : HostReg} (h : LogicallySame a b)
    (hr : readRegister r a = .next a') : ∃ b', readRegister r b = .next b' ∧ LogicallySame a' b' := by
  have hexists : ∀ i, r = .txt i → i < a.cfg.textMax := by
    rintro i rfl
    by_contra hi
    rw [readRegister_missing_txt (Nat.not_lt.mp hi)] at hr
    cases hr
  rw [readRegister_of_exists hexists] at hr
  obtain rfl := Host.Outcome.next.inj hr
  exact ⟨b, readRegister_of_exists (h.cfg_eq ▸ hexists), h⟩

/-- A write that is accepted and reaches no writable register is ignored, in this block and in any other (rule R38). -/
theorem deliver_not_writable {w : HostWrite} {s t : State} (hopr : ∀ v, w ≠ .opr v)
    (hw : ¬ w.Writable s.cfg.textMax) (h : deliver (.write w) s = .next t) (u : State) :
    deliver (.write w) u = .next u := by
  cases w with
  | opr v => exact absurd rfl (hopr v)
  | txt i v => exact absurd ((writeRegister_missing_txt (Nat.not_lt.mp hw) v).symm.trans h) nofun
  | resFlag | resVal | status => rfl
  | _ => exact absurd trivial hw

/-- One silent input moves both blocks the same way. -/
theorem LogicallySame.deliver {x : Input} {a' : State} (h : LogicallySame a b) (hx : x.Silent)
    (ha : deliver x a = .next a') : ∃ b', deliver x b = .next b' ∧ LogicallySame a' b' := by
  obtain ⟨v, i, rfl, hd, hi⟩ | ⟨v, r, rfl, hd, -⟩ | ⟨w, rfl, hopr, hw, rfl⟩ | ⟨w, rfl, hopr, hw, rfl⟩ | ⟨r, rfl, -⟩ |
    ⟨rfl, -⟩ | ⟨p, rfl, -⟩ := deliver_cases ha
  · obtain ⟨j, hj, rfl⟩ := hx
    obtain rfl := Decoded.request.inj ((decode_encode j).symm.trans hd)
    rw [exec_eq_next] at hi
    obtain rfl := Host.Outcome.next.inj hi
    exact ⟨_, (writeOpr_of_request hd b).trans (exec_eq_next j b), h.execNext hj⟩
  · obtain ⟨j, -, rfl⟩ := hx
    rw [decode_encode] at hd
    cases hd
  · exact ⟨_, deliver_operand hopr (h.cfg_eq ▸ hw), h.hostWritable (h.update (registerUpdate_storeOperand w))⟩
  · exact ⟨b, deliver_not_writable hopr hw ha b, h⟩
  · exact h.readRegister ha
  · exact hx.elim
  · exact hx.elim

theorem LogicallySame.step {a' : State} (h : LogicallySame a b) (hsilent : ∀ x ∈ a.inputs, x.Silent)
    (ha : step a = .next a') : ∃ b', step b = .next b' ∧ LogicallySame a' b' := by
  obtain ⟨hnone, rfl⟩ | ⟨x, rest, hsome, hx⟩ := step_cases ha
  · rw [step_of_no_input (h.inputs_eq.trans hnone), State.elapse_of_idle h.idle,
      State.elapse_of_idle (h.busy_eq.trans h.idle)]
    exact ⟨b, rfl, h⟩
  · rw [step_of_input (h.inputs_eq.trans hsome)]
    exact (h.update (registerUpdate_inputs rest)).deliver (hsilent x (hsome ▸ List.mem_cons_self)) hx

end

theorem exists_step_of_run_succ {n : Nat} {s t : State} (h : Sys2Proof.core.run (n + 1) s = .next t) :
    ∃ u, step s = .next u ∧ Sys2Proof.core.run n u = .next t := by
  cases hs : step s with
  | next u => exact ⟨u, rfl, (run_succ_of_next hs).symm.trans h⟩
  | fault r =>
    rw [run_succ_of_fault hs] at h
    cases h
  | refused r =>
    simp only [Host.Core.run, show Sys2Proof.core.step s = .refused r from hs] at h
    cases h

/-- Settles O30, by induction on the number of steps: each step takes one silent input and keeps the blocks in step. -/
theorem backendsAgreeLogically : Obligations.BackendsAgreeLogically := by
  intro n
  induction n with
  | zero =>
    intro a b h _ a' ha
    rw [run_zero] at ha
    obtain rfl := Host.Outcome.next.inj ha
    exact ⟨b, run_zero b, h⟩
  | succ n ih =>
    intro a b h hsilent a' ha
    obtain ⟨t, hstep, hrun⟩ := exists_step_of_run_succ ha
    obtain ⟨u, hstep', hsame⟩ := h.step hsilent hstep
    have hleft : t.inputs = a.inputs.tail := stepTakesInputsInOrder a t hstep
    obtain ⟨b', hrun', hsame'⟩ := ih t u hsame (fun x hx => hsilent x (List.mem_of_mem_tail (hleft ▸ hx))) a' hrun
    exact ⟨b', (run_succ_of_next hstep').trans hrun', hsame'⟩

end Sys2Proof.Machine

/-! The proofs about the watcher of the lines, INIT and the stalled encoder. INIT's events are its request's own, only
spelled out as bits and words; and a host access to a busy block can change STATUS.FAULT alone, so an encoder with
events left waits through any number of them. -/

namespace Sys2Proof.Machine

/-! ### What a frame latches (rule R141) -/

/-- Settles O32: each frame closes with the bits it latched. -/
theorem framesLatchTheirBits : Obligations.FramesLatchTheirBits := by
  refine fun l hl => ⟨fun bits => (Latch.foldl_gpioFrame bits hl).symm, fun w => ?_⟩
  obtain ⟨hcs, hframes⟩ := Latch.foldl_spiTxn w hl
  rw [bitsMsbFirst_eq_getLsbD] at hframes
  exact ⟨hframes, hcs⟩

/-! ### The sequence of INIT (rules R102, R170 to R172) -/

theorem length_flatMap_of_length {α β : Type} {f : α → List β} {k : Nat} (hf : ∀ a, (f a).length = k) (l : List α) :
    (l.flatMap f).length = l.length * k := by
  simp [List.length_flatMap, hf]

theorem length_sendCmd_gpio (c : Byte) : (sendCmd .gpio c).length = 39 := by
  rw [sendCmd, length_gpioFrame, length_bitsMsbFirst]

theorem length_sendCmd_spi (c : Byte) : (sendCmd .spi c).length = 4 := rfl

theorem length_sendNib (a : Nat) (nib : BitVec 4) : (sendNib a nib).length = 4 := rfl

/-- Seven command frames of 39 events and one write frame of 394 bits. -/
theorem length_initEvents_gpio (cfg : Config) : (initEvents .gpio cfg).length = 1458 := by
  rw [initEvents, List.length_append, length_flatMap_of_length length_sendCmd_gpio, clearDisplayEvents,
    length_gpioFrame, List.length_append, List.length_replicate]
  rfl

/-- Seven commands and 96 nibbles, four events each. -/
theorem length_initEvents_spi (cfg : Config) : (initEvents .spi cfg).length = 412 := by
  rw [initEvents, List.length_append, length_flatMap_of_length length_sendCmd_spi, clearDisplayEvents,
    length_flatMap_of_length fun a => length_sendNib a 0, List.length_range]
  rfl

/-- Where the pace covers its end, INIT sends its events in an open block, ready or not, then zeroes the framebuffer
and sets READY (rule R170). -/
theorem exec_init_of_covers {s : State} (ho : s.Open) (hp : s.pace.Covers ((initEvents s.backend s.cfg).length + 1)) :
    exec .init s =
      .next { s.afterRequest .init (initEvents s.backend s.cfg) with fb := fbZero s.fb, ready := true } := by
  have hidle : s.busy = false := ho.2
  rw [exec_of_accepted ho (fun h => absurd rfl h) rfl, requestRun, State.afterRequest, hidle]
  exact congrArg Host.Outcome.next (State.launch_zeroAndReady hp)

theorem fbZero_of_gpio {fb : Framebuffer} (h : fb.backend = .gpio) : fbZero fb = .gpio (Vector.replicate 12 0) := by
  cases fb with
  | gpio w => rfl
  | spi b => cases h

theorem fbZero_of_spi {fb : Framebuffer} (h : fb.backend = .spi) : fbZero fb = .spi (Vector.replicate 24 0) := by
  cases fb with
  | gpio w => cases h
  | spi b => rfl

/-- Settles O38: the events are INIT's own, with each frame's bits and each transaction's word written out. -/
theorem initSendsItsSequence : Obligations.InitSendsItsSequence := by
  refine fun s ho => ⟨fun hb hp => ?_, fun hb hp => ?_⟩
  · have hlength := length_initEvents_gpio s.cfg
    have hexec := exec_init_of_covers ho (by rwa [hb, hlength])
    rw [hb, fbZero_of_gpio hb] at hexec
    refine ⟨initEvents .gpio s.cfg, hexec, hlength, ?_⟩
    rw [initEvents, funext sendCmd_gpio]
    rfl
  · have hlength := length_initEvents_spi s.cfg
    have hexec := exec_init_of_covers ho (by rwa [hb, hlength])
    rw [hb, fbZero_of_spi hb] at hexec
    refine ⟨initEvents .spi s.cfg, hexec, hlength, ?_⟩
    simp only [initEvents, initCommands, funext sendCmd_spi, clearDisplayEvents, sendNib, sData_eq_append]

/-! ### A stalled encoder (rules R146, R225, R228) -/

theorem hostWritable_eq_raiseFault_of_busy {s : State} (hb : s.busy = true) (f : State → State) :
    ∃ c, hostWritable f s = raiseFault c s :=
  hostWritable_keeps (fun t => ∃ c, t = raiseFault c s) ⟨s.fault, rfl⟩ ⟨.busy, rfl⟩
    fun ho => absurd (hb.symm.trans ho.2) Bool.noConfusion

/-- A host access to a busy block changes STATUS.FAULT at most (rules R38, R225). -/
theorem deliver_of_busy {x : Input} {s t : State} (hb : s.busy = true) (hx : x.LiftsNoWait)
    (h : deliver x s = .next t) : ∃ c, t = raiseFault c s := by
  obtain ⟨v, i, -, -, hexec⟩ | ⟨v, r, -, -, rfl⟩ | ⟨w, -, -, -, rfl⟩ | ⟨w, -, -, -, rfl⟩ | ⟨r, -, rfl⟩ | ⟨rfl, -⟩ |
    ⟨p, rfl, -⟩ := deliver_cases h
  · rw [exec_eq_next] at hexec
    obtain rfl := Host.Outcome.next.inj hexec
    exact hostWritable_eq_raiseFault_of_busy hb _
  · exact hostWritable_eq_raiseFault_of_busy hb _
  · exact hostWritable_eq_raiseFault_of_busy hb _
  · exact ⟨t.fault, rfl⟩
  · exact ⟨t.fault, rfl⟩
  · exact hx.elim
  · exact hx.elim

/-- One step of a busy block with events left takes a host access, if one comes, and changes STATUS.FAULT at most. -/
theorem step_of_stalled {s t : State} (hb : s.busy = true) (hp : s.pending ≠ [])
    (hx : ∀ x ∈ s.inputs, x.LiftsNoWait) (h : step s = .next t) :
    ∃ c, t = { s with fault := c, inputs := s.inputs.tail } := by
  obtain ⟨hnone, rfl⟩ | ⟨x, rest, hsome, hdeliver⟩ := step_cases h
  · refine ⟨s.fault, ?_⟩
    rw [State.elapse_of_pending hp, hnone, List.tail_nil, ← hnone]
  · rw [hsome]
    exact deliver_of_busy (s := { s with inputs := rest }) hb (hx x (hsome ▸ List.mem_cons_self)) hdeliver

/-- However many host accesses come, only the inputs left and STATUS.FAULT change. -/
theorem run_of_stalled {n : Nat} {s t : State} (hb : s.busy = true) (hp : s.pending ≠ [])
    (hx : ∀ x ∈ s.inputs, x.LiftsNoWait) (h : Sys2Proof.core.run n s = .next t) :
    ∃ c xs, t = { s with fault := c, inputs := xs } := by
  induction n generalizing s with
  | zero =>
    rw [run_zero] at h
    exact ⟨s.fault, s.inputs, (Host.Outcome.next.inj h).symm⟩
  | succ n ih =>
    obtain ⟨u, hstep, hrun⟩ := exists_step_of_run_succ h
    obtain ⟨c, rfl⟩ := step_of_stalled hb hp hx hstep
    exact ih (s := { s with fault := c, inputs := s.inputs.tail }) hb hp
      (fun x hmem => hx x (List.mem_of_mem_tail hmem)) hrun

/-- Settles O50: a run of host accesses changes no output. The pace plays no part in it: only a new draw would make the
encoder look at it again. -/
theorem stalledEncoderWaits : Obligations.StalledEncoderWaits := by
  intro n s t hb hp _ hx h
  obtain ⟨c, xs, rfl⟩ := run_of_stalled hb hp hx h
  exact ⟨hb, rfl, rfl, rfl, rfl, rfl⟩

end Sys2Proof.Machine

/-! The proofs about the glyph family. Each request is an accepted one whose effect is a single lookup, drawing or
traversal, so its statement is what `find`, `drawGlyph` or `textWalk` does with the operands. -/

namespace Sys2Proof.Machine

/-! ### FIND (rules R193, R194, R200) -/

/-- Where the pace covers its end, FIND puts the lookup's answer into the result registers and changes nothing else. -/
theorem exec_find_of_covers {s : State} (ha : s.Accepting) (hp : s.pace.Covers 1) :
    exec .find s = .next { s.afterRequest .find [] with
      resFlag := (find s.cfg.font s.argC).isSome,
      resVal := BitVec.ofNat 32 ((find s.cfg.font s.argC).getD 0) } :=
  exec_of_covers (by decide) ha rfl hp

/-- Settles O43: the binary search finds the record with the code, as the codes of a well-formed FONT ascend; and what
it finds is always such a record. -/
theorem findIsExactMatch : Obligations.FindIsExactMatch := by
  intro s ha hwf hp
  obtain ⟨-, hascending, -⟩ := (Config.wf_iff s.cfg).mp hwf
  rw [exec_find_of_covers ha hp]
  refine ⟨fun g r hg hcode => ?_, fun hnone => ?_⟩
  · rw [find_of_record hascending hg hcode]
    rfl
  · rw [find_of_no_record hnone]
    rfl

/-! ### DRAWG (rules R191, R195, R201, R226) -/

/-- Check 5 of rule R221 lets an index of the ROM through. -/
theorem glyphIndexCheck_of_lt {s : State} (h : s.argC.toNat < s.cfg.font.length) : glyphIndexCheck s = .none :=
  if_neg (Nat.not_le.mpr h)

/-- Settles O44: the accepted request leaves `drawGlyph`'s framebuffer. -/
theorem drawgLightsSwappedPixels : Obligations.DrawgLightsSwappedPixels := by
  intro s ha hp hindex
  exact ⟨drawGlyph s.cfg.font s.operandA s.operandB s.operandIndex s.fb,
    exec_of_covers (by decide) ha (glyphIndexCheck_of_lt hindex) hp, backend_drawGlyph ..,
    fun _ _ => pixel_drawGlyph _ _ _ _ _⟩

/-! ### TEXT and WIDTH (rules R192, R196, R202, R203, R227) -/

/-- Check 6 of rule R221 lets a text that the buffer holds through. -/
theorem textLenCheck_of_le {s : State} (h : s.txtLen.toNat ≤ s.cfg.textMax) : textLenCheck s = .none :=
  if_neg (Nat.not_lt.mpr h)

theorem State.operandText_getElem (s : State) {k : Nat} (hk : k < s.operandText.length) :
    s.operandText[k] = TextBuffer.read s.txt k := by
  simp only [State.operandText, List.getElem_map, List.getElem_range]

/-- What the traversal of the operand text lights: the glyph of each cell that the lookup finds, at the cursor that
the advances of the cells before it give (rule R196). -/
theorem pixel_textWalk_operandText (s : State) (x0 y0 : Int) (fb : Framebuffer) {x y : Nat} (hx : x < 16)
    (hy : y < 12) :
    (textWalk s.cfg.font x0 y0 s.operandText true fb).fb.pixel x y = true ↔
      fb.pixel x y = true ∨
        ∃ k g : Nat, k < s.txtLen.toNat ∧ find s.cfg.font (TextBuffer.read s.txt k) = some g ∧
          GlyphLights s.cfg.font g (x0 + advanceBefore s k) y0 x y := by
  rw [textWalk, pixel_walk s.cfg.font y0 s.operandText _ hx hy]
  refine or_congr_right (exists₂_congr fun k g => ?_)
  rw [← exists_prop, ← s.operandText_length]
  refine exists_congr fun hk => ?_
  rw [s.operandText_getElem hk, State.operandText_take (s.operandText_length ▸ hk.le), ← advanceBefore_eq]

/-- Settles O45: the accepted request leaves the framebuffer of the traversal of its text. -/
theorem textDrawsGlyphsAtCursors : Obligations.TextDrawsGlyphsAtCursors := by
  intro s ha hp hlen
  exact ⟨(textWalk s.cfg.font s.operandA s.operandB s.operandText true s.fb).fb,
    exec_of_covers (by decide) ha (textLenCheck_of_le hlen) hp, walk_backend ..,
    fun _ _ => pixel_textWalk_operandText s _ _ s.fb⟩

/-- The width of the whole operand text is the advances of its cells, drawing or not. -/
theorem textWalk_w_operandText (s : State) (x0 y0 : Int) (draw : Bool) (fb : Framebuffer) :
    (textWalk s.cfg.font x0 y0 s.operandText draw fb).w = advanceBefore s s.txtLen.toNat := by
  rw [textWalk_w, advanceBefore_eq, State.operandText]

/-- No text is wider than RES_VAL holds: an advance is at most 15 and TXT_LEN at most 65535 (rule R29). -/
theorem advanceBefore_txtLen_lt (s : State) : advanceBefore s s.txtLen.toNat < 2 ^ 32 := by
  have hadvance := advanceBefore_le s s.txtLen.toNat
  have hlen := s.txtLen.isLt
  omega

/-- Settles O46: the accepted request puts the traversal's width into RES_VAL, where it does not wrap. -/
theorem widthSumsAdvances : Obligations.WidthSumsAdvances := by
  intro s ha hp hlen
  refine ⟨_, exec_of_covers (by decide) ha (textLenCheck_of_le hlen) hp, ?_⟩
  rw [requestVal, textWalk_w_operandText, BitVec.toNat_ofNat]
  exact Nat.mod_eq_of_lt (advanceBefore_txtLen_lt s)

end Sys2Proof.Machine

/-! The proofs about the faults. Every write to a host-writable register goes through checks 1 and 2 of rule R221 in the
same way, so what differs between the registers is only what an open block does with the write; and a request's later
checks are an if-chain over the request and the operand registers. -/

namespace Sys2Proof.Machine

/-! ### A host write, past checks 1 and 2 of rule R221 -/

/-- What an open block does with a host write: it starts or rejects the request that a byte written to OPR stands for,
and stores any other value. -/
def acceptWrite (w : HostWrite) (s : State) : State :=
  match w with
  | .opr v =>
    match decode v with
    | .request i => requestOrFault i { s with opr := v }
    | .reserved _ => raiseFault .illegalOp { s with opr := v }
  | w => storeOperand w s

theorem acceptWrite_of_request {v : Byte} {i : Instr} (hd : decode v = .request i) (s : State) :
    acceptWrite (.opr v) s = requestOrFault i { s with opr := v } := by
  simp only [acceptWrite, hd]

theorem acceptWrite_of_reserved {v : Byte} {r : Reserved} (hd : decode v = .reserved r) (s : State) :
    acceptWrite (.opr v) s = raiseFault .illegalOp { s with opr := v } := by
  simp only [acceptWrite, hd]

theorem acceptWrite_of_operand {w : HostWrite} (hopr : ∀ v, w ≠ .opr v) : acceptWrite w = storeOperand w := by
  cases w with
  | opr v => exact absurd rfl (hopr v)
  | _ => rfl

/-- No byte but a request's own decodes to it, so OPR holds the value written in either branch of the decoder. -/
theorem writeOpr_eq_hostWritable (v : Byte) (s : State) :
    writeOpr v s = .next (hostWritable (acceptWrite (.opr v)) s) := by
  cases hd : decode v with
  | request i =>
    rw [writeOpr_of_request hd, exec_eq_next, execNext_eq, funext (acceptWrite_of_request hd), eq_encode_of_decode hd]
  | reserved r => rw [writeOpr_of_reserved hd, funext (acceptWrite_of_reserved hd), rejectReserved]

/-- A write of any register that the host can write goes through checks 1 and 2 of rule R221 (rules R38, R225). -/
theorem deliver_of_writable {w : HostWrite} {s : State} (hw : w.Writable s.cfg.textMax) :
    deliver (.write w) s = .next (hostWritable (acceptWrite w) s) := by
  obtain ⟨v, rfl⟩ | hopr := exists_or_forall_not fun v => w = .opr v
  · exact writeOpr_eq_hostWritable v s
  · rw [acceptWrite_of_operand hopr]
    exact deliver_operand hopr hw

theorem step_of_writable {s : State} {w : HostWrite} {rest : List Input} (hs : s.inputs = .write w :: rest)
    (hw : w.Writable s.cfg.textMax) : step s = .next (hostWritable (acceptWrite w) { s with inputs := rest }) :=
  (step_of_input hs).trans (deliver_of_writable (s := { s with inputs := rest }) hw)

/-- A write that is accepted and reaches no writable register leaves the block as it is (rule R38). -/
theorem deliver_eq_of_not_writable {w : HostWrite} {s t : State} (hw : ¬ w.Writable s.cfg.textMax)
    (h : deliver (.write w) s = .next t) : t = s := by
  have hopr : ∀ v, w ≠ .opr v := by
    rintro v rfl
    exact hw trivial
  exact Host.Outcome.next.inj (h.symm.trans (deliver_not_writable hopr hw h s))

/-! ### Check 1: a sticky fault (rules R221, R232) -/

theorem step_of_writable_of_fault {s : State} {w : HostWrite} {rest : List Input} (hf : s.fault ≠ .none)
    (hs : s.inputs = .write w :: rest) (hw : w.Writable s.cfg.textMax) : step s = .next { s with inputs := rest } := by
  rw [step_of_writable hs hw, hostWritable_of_fault (s := { s with inputs := rest }) hf]

/-- Settles O15: check 1 returns the state that holds the inputs left. -/
theorem faultedBlockIgnoresWrites : Obligations.FaultedBlockIgnoresWrites :=
  fun _ _ _ hf hs hw => step_of_writable_of_fault hf hs hw

theorem exec_of_fault {s : State} (hf : s.fault ≠ .none) (i : Instr) : exec i s = .next s := by
  rw [exec_eq_next, execNext_eq, hostWritable_of_fault hf]

/-- Only reset gets at the fault of a faulted block: host accesses leave the whole state, and the transport's draw
leaves every register. -/
theorem deliver_fault_of_fault {x : Input} {s t : State} (hf : s.fault ≠ .none) (hx : x ≠ .reset)
    (h : deliver x s = .next t) : t.fault = s.fault := by
  obtain ⟨v, i, -, -, hexec⟩ | ⟨v, r, -, -, rfl⟩ | ⟨w, -, -, -, rfl⟩ | ⟨w, -, -, -, rfl⟩ | ⟨r, -, rfl⟩ | ⟨rfl, -⟩ |
    ⟨p, -, rfl⟩ := deliver_cases h
  · rw [← Host.Outcome.next.inj ((exec_of_fault hf i).symm.trans hexec)]
  · rw [rejectReserved, hostWritable_of_fault hf]
  · rw [hostWritable_of_fault hf]
  · rfl
  · rfl
  · exact absurd rfl hx
  · exact State.proceed_fault _

/-- Settles O17: a step without input keeps the fault too, and a reset clears it. -/
theorem onlyResetClearsFault : Obligations.OnlyResetClearsFault := by
  intro s t h hf
  obtain ⟨hnone, rfl⟩ | ⟨x, rest, hsome, hx⟩ := step_cases h
  · rw [hnone]
    exact ⟨fun _ => s.elapse_fault, nofun⟩
  · rw [hsome, List.head?_cons]
    refine ⟨fun hne => ?_, fun hreset => ?_⟩
    · exact deliver_fault_of_fault (s := { s with inputs := rest }) hf (fun hr => hne (congrArg some hr)) hx
    · obtain rfl : x = .reset := Option.some.inj hreset
      rw [← Host.Outcome.next.inj hx, applyReset_fault]

/-! ### Check 2: F_BUSY (rules R221, R225) -/

theorem step_of_writable_of_busy {s : State} {w : HostWrite} {rest : List Input} (hf : s.fault = .none)
    (hb : s.busy = true) (hs : s.inputs = .write w :: rest) (hw : w.Writable s.cfg.textMax) :
    step s = .next { s with inputs := rest, fault := .busy } := by
  rw [step_of_writable hs hw, hostWritable_of_busy (s := { s with inputs := rest }) hf hb]
  rfl

/-- Settles O10: check 2 raises code 3 and discards the write. -/
theorem writeWhileBusyRaisesBusy : Obligations.WriteWhileBusyRaisesBusy :=
  fun _ _ _ hf hb hs hw => ⟨_, step_of_writable_of_busy hf hb hs hw, rfl, statusWord_div _⟩

/-! ### The end of the request in flight (rules R30, R170, R225) -/

theorem State.finish_of_nothing {s : State} (h : s.closing = .nothing) :
    s.finish = { s with pending := [], busy := false } := by
  simp only [State.finish, h]

theorem State.finish_of_zeroAndReady {s : State} (h : s.closing = .zeroAndReady) :
    s.finish = { s with pending := [], closing := .nothing, fb := fbZero s.fb, ready := true, busy := false } := by
  simp only [State.finish, h]

/-- A free draw of the transport sends all that is left and ends the request. -/
theorem step_of_free_pace {s : State} {rest : List Input} (hb : s.busy = true) (hs : s.inputs = .pace .free :: rest) :
    step s = .next ((s.emit s.pending).finish.environ .free rest) := by
  rw [← State.proceed_environ_free hb]
  exact step_of_input hs

/-- The fault and the inputs are no part of what the outputs keep. -/
theorem State.OutputInv.with_fault_inputs {s : State} (h : s.OutputInv) (c : FaultCode) (xs : List Input) :
    State.OutputInv { s with fault := c, inputs := xs } :=
  ⟨h.levels, h.mark, h.since, h.read, h.order, h.idle⟩

/-- Settles O11: F_BUSY touches nothing of the request in flight, a free draw ends it between frames, and the fault that
stays refuses whatever comes next. -/
theorem requestInFlightEndsAfterBusyWrite : Obligations.RequestInFlightEndsAfterBusyWrite := by
  intro s w rest hinv hf hb hs hw
  let t : State := { s with inputs := .pace .free :: rest, fault := .busy }
  let u : State := (t.emit t.pending).finish.environ .free rest
  have hstep : step t = .next u := step_of_free_pace hb rfl
  have hfault : u.fault = .busy := State.finish_fault _
  have hidle : u.busy = false := State.finish_busy _
  have hclosed : u.lines.csN = true :=
    ((stepKeepsOutputInv t u (hinv.with_fault_inputs _ _) hstep).levels_of_idle hidle).1.symm
  have hnothing : s.closing = .nothing → u.fb = s.fb ∧ u.ready = s.ready := fun hc => by
    simp only [u, State.finish_of_nothing (s := t.emit t.pending) hc]
    exact ⟨rfl, rfl⟩
  have hinit : s.closing = .zeroAndReady → u.fb = fbZero s.fb ∧ u.ready = true := fun hc => by
    simp only [u, State.finish_of_zeroAndReady (s := t.emit t.pending) hc]
    exact ⟨rfl, rfl⟩
  have hrefused : ∀ i, exec i u = .next u := exec_of_fault (by rw [hfault]; decide)
  exact ⟨t, u, step_of_writable_of_busy hf hb hs hw, rfl, statusWord_div t, hstep, hfault, State.finish_trace _,
    State.finish_pending _, hclosed, hidle, hnothing, hinit, State.finish_opr _, State.finish_argA _,
    State.finish_argB _, State.finish_argV _, State.finish_argC _, State.finish_txt _, State.finish_txtLen _,
    State.finish_resFlag _, State.finish_resVal _, hrefused⟩

/-! ### Check 3: F_ILLEGAL_OP (rules R105, R223) -/

theorem exists_reserved_of_reservedByte {b : Byte} (h : ReservedByte b) : ∃ r, decode b = .reserved r := by
  cases hd : decode b with
  | request i => exact absurd hd ((reservedValuesDecodeToNoRequest b).mp h i)
  | reserved r => exact ⟨r, rfl⟩

theorem step_of_reserved {s : State} {b : Byte} {rest : List Input} (ho : s.Open)
    (hs : s.inputs = .write (.opr b) :: rest) (hb : ReservedByte b) :
    step s = .next { s with inputs := rest, opr := b, fault := .illegalOp } := by
  obtain ⟨r, hd⟩ := exists_reserved_of_reservedByte hb
  rw [step_of_writable hs trivial, hostWritable_of_open (s := { s with inputs := rest }) ho, acceptWrite_of_reserved hd]
  rfl

/-- Settles O8: an open block reaches check 3, which raises code 1. -/
theorem reservedValueRaisesIllegalOp : Obligations.ReservedValueRaisesIllegalOp :=
  fun _ _ _ ho hs hb => ⟨_, step_of_reserved ho hs hb, rfl, statusWord_div _⟩

/-! ### Checks 4 to 6: F_NOT_INIT, F_GLYPH_INDEX, F_TEXT_LEN (rules R224, R226, R227) -/

/-- Checks 5 and 6 of rule R221, over the request and the operand registers. -/
theorem requestCheck_eq (i : Instr) (s : State) :
    requestCheck i s =
      if i = .drawg ∧ s.cfg.font.length ≤ s.argC.toNat then .glyphIndex
      else if (i = .text ∨ i = .width) ∧ s.cfg.textMax < s.txtLen.toNat then .textLen
      else .none := by
  cases i
  case drawg => exact if_congr (by simp [Config.nGlyphs, State.operandIndex]) rfl (by simp)
  case text => simp [requestCheck, textLenCheck]
  case width => simp [requestCheck, textLenCheck]
  all_goals simp [requestCheck, noCheck]

theorem requestCheck_ne_busy (i : Instr) (s : State) : requestCheck i s ≠ .busy := by
  rw [requestCheck_eq]
  split_ifs <;> decide

theorem requestCheck_opr (i : Instr) (s : State) (v : Byte) : requestCheck i { s with opr := v } = requestCheck i s :=
  requestCheck_opr_pace i s v s.pace

theorem requestOrFault_of_not_ready {i : Instr} {s : State} (hi : i ≠ .init) (hr : s.ready = false) :
    requestOrFault i s = raiseFault .notInit s :=
  if_pos (by simp [hi, hr])

theorem requestOrFault_of_ready {i : Instr} {s : State} (h : ¬ (s.ready = false ∧ i ≠ .init)) :
    requestOrFault i s = if requestCheck i s ≠ .none then raiseFault (requestCheck i s) s else requestRun i s :=
  if_neg (by simpa [and_comm] using h)

theorem requestRun_fault (i : Instr) (s : State) : (requestRun i s).fault = s.fault := State.launch_fault ..

/-- The fault recorded is that of the first check that fails, and a request that runs records none. -/
theorem requestOrFault_fault (i : Instr) {s : State} (hf : s.fault = .none) :
    (requestOrFault i s).fault = if s.ready = false ∧ i ≠ .init then .notInit else requestCheck i s := by
  split_ifs with hr
  · rw [requestOrFault_of_not_ready hr.2 hr.1, raiseFault_fault]
  · rw [requestOrFault_of_ready hr]
    split_ifs with hc
    · rfl
    · rw [requestRun_fault, hf, not_ne_iff.mp hc]

theorem exec_of_open {i : Instr} {s : State} (ho : s.Open) :
    exec i s = .next (requestOrFault i { s with opr := encode i }) := by
  rw [exec_eq_next, execNext_eq, hostWritable_of_open ho]

theorem exec_of_not_ready {i : Instr} {s : State} (ho : s.Open) (hr : s.ready = false) (hi : i ≠ .init) :
    exec i s = .next { s with opr := encode i, fault := .notInit } := by
  rw [exec_of_open ho, requestOrFault_of_not_ready (s := { s with opr := encode i }) hi hr]
  rfl

/-- Settles O9: an open block reaches check 4, which lets INIT alone through. -/
theorem requestBeforeInitRaisesNotInit : Obligations.RequestBeforeInitRaisesNotInit :=
  fun _ _ ho hr hi => ⟨_, exec_of_not_ready ho hr hi, rfl, statusWord_div _⟩

/-- A request that an accepting block refuses records its check's code, and OPR holds its byte (rule R222). -/
theorem exec_of_failed_check {i : Instr} {s : State} {c : FaultCode} (ha : s.Accepting) (hc : requestCheck i s = c)
    (hne : c ≠ .none) : exec i s = .next { s with opr := encode i, fault := c } := by
  have hready : ¬ (s.ready = false ∧ i ≠ .init) := fun h => absurd (h.1.symm.trans ha.2.2) Bool.noConfusion
  have hcheck : requestCheck i { s with opr := encode i } = c := (requestCheck_opr i s _).trans hc
  rw [exec_of_open ha.toOpen, requestOrFault_of_ready (s := { s with opr := encode i }) hready, hcheck, if_pos hne]
  rfl

/-- Settles O12: check 5 stands before the drawing. -/
theorem glyphIndexOutOfRangeFaults : Obligations.GlyphIndexOutOfRangeFaults := fun _ ha hindex =>
  ⟨_, exec_of_failed_check ha (if_pos hindex) (by decide), rfl, statusWord_div _⟩

/-- Settles O13: TEXT and WIDTH have the same check 6. -/
theorem textLongerThanBufferFaults : Obligations.TextLongerThanBufferFaults := fun _ ha hlen =>
  ⟨⟨_, exec_of_failed_check ha (if_pos hlen) (by decide), rfl, statusWord_div _⟩,
    ⟨_, exec_of_failed_check ha (if_pos hlen) (by decide), rfl, statusWord_div _⟩⟩

/-! ### The order of the checks (rules R221, R230) -/

/-- Settles O14: each clause is the check that decides it, with the checks before it passed. -/
theorem faultPriorityIsCheckOrder : Obligations.FaultPriorityIsCheckOrder := by
  intro s t b rest hs h
  have hnext {u : State} (hu : step s = .next u) : t = u := Host.Outcome.next.inj (h.symm.trans hu)
  refine ⟨fun hf => ?_, fun hf hb => ?_, fun ho hres => ?_, fun i ho hd => ?_⟩
  · rw [hnext (step_of_writable_of_fault hf hs trivial)]
  · rw [hnext (step_of_writable_of_busy hf hb hs trivial)]
  · rw [hnext (step_of_reserved ho hs hres)]
  · rw [hnext ((step_of_request hs hd).trans (exec_of_open (s := { s with inputs := rest }) ho)),
      requestOrFault_fault i (by exact ho.1), requestCheck_eq]

/-! ### A fault leaves no partial effect (rules R221, R222) -/

theorem storeOperand_fault (w : HostWrite) (s : State) : (storeOperand w s).fault = s.fault := by cases w <;> rfl

/-- A request that one of the checks 4 to 6 refuses changes STATUS.FAULT alone. -/
theorem requestOrFault_of_raised {i : Instr} {s : State} (hf : s.fault = .none)
    (h : (requestOrFault i s).fault ≠ .none) : ∃ c, c ≠ .busy ∧ requestOrFault i s = raiseFault c s := by
  by_cases hr : s.ready = false ∧ i ≠ .init
  · exact ⟨.notInit, by decide, requestOrFault_of_not_ready hr.2 hr.1⟩
  · rw [requestOrFault_of_ready hr] at h ⊢
    split_ifs at h ⊢ with hc
    · exact ⟨_, requestCheck_ne_busy i s, rfl⟩
    · exact absurd ((requestRun_fault i s).trans hf) h

/-- Past checks 1 and 2, a fault is raised by a write to OPR, and it changes STATUS.FAULT and OPR alone. -/
theorem acceptWrite_of_raised {w : HostWrite} {s : State} (hf : s.fault = .none) (h : (acceptWrite w s).fault ≠ .none) :
    ∃ v c, w = .opr v ∧ c ≠ .busy ∧ acceptWrite w s = raiseFault c { s with opr := v } := by
  obtain ⟨v, rfl⟩ | hopr := exists_or_forall_not fun v => w = .opr v
  · cases hd : decode v with
    | request i =>
      rw [acceptWrite_of_request hd] at h ⊢
      obtain ⟨c, hc, hraise⟩ := requestOrFault_of_raised (s := { s with opr := v }) hf h
      exact ⟨v, c, rfl, hc, hraise⟩
    | reserved r => exact ⟨v, .illegalOp, rfl, by decide, acceptWrite_of_reserved hd s⟩
  · rw [acceptWrite_of_operand hopr, storeOperand_fault] at h
    exact absurd hf h

/-- A host write that raises a fault is discarded with F_BUSY, or was a write to OPR that a later check refused. -/
theorem deliver_of_raised {w : HostWrite} {s t : State} (hf : s.fault = .none) (h : deliver (.write w) s = .next t)
    (ht : t.fault ≠ .none) :
    t = raiseFault .busy s ∨ ∃ v c, w = .opr v ∧ c ≠ .busy ∧ t = raiseFault c { s with opr := v } := by
  by_cases hw : w.Writable s.cfg.textMax
  · rw [deliver_of_writable hw] at h
    obtain rfl := Host.Outcome.next.inj h
    obtain hb | hb := Bool.eq_false_or_eq_true s.busy
    · exact .inl (hostWritable_of_busy hf hb)
    · rw [hostWritable_of_open ⟨hf, hb⟩] at ht ⊢
      exact .inr (acceptWrite_of_raised hf ht)
  · rw [deliver_eq_of_not_writable hw h] at ht
    exact absurd hf ht

/-- Settles O16: F_BUSY leaves OPR, and every other code comes with the value written to it. -/
theorem faultLeavesNoPartialEffect : Obligations.FaultLeavesNoPartialEffect := by
  intro s t w rest hf hs h ht
  rw [step_of_input hs] at h
  obtain rfl | ⟨v, c, rfl, hc, rfl⟩ := deliver_of_raised (s := { s with inputs := rest }) hf h ht
  · exact ⟨rfl, fun _ => rfl, fun hne => absurd rfl hne⟩
  · exact ⟨rfl, fun hbusy => absurd hbusy hc, fun _ => rfl⟩

end Sys2Proof.Machine

/-! The proofs about reset and about what INIT leaves. A reset appends those of the five restoring events whose line
stands at another level, in some order. INIT's frames are received one after another, so its effect on the chip is the
effects of its frames, composed. -/

namespace Sys2Proof.Machine

/-! ### The events of a reset (rules R250, R251) -/

/-- The part of `resetChanges` for one line, which is at its level of rule R39 where `p` holds. -/
theorem mem_lineChange {p : Prop} [Decidable p] {n : Nat} {e f : Event} :
    e ∈ (if p then [] else [(n, f)]).map Prod.snd ↔ e = f ∧ ¬ p := by
  split <;> simp_all

theorem lineChange_sublist {p : Prop} [Decidable p] (n : Nat) (f : Event) :
    ((if p then [] else [(n, f)]).map Prod.snd).Sublist [f] := by
  split <;> simp

theorem resetChanges_sublist (l : Lines) : ((resetChanges l).map Prod.snd).Sublist restoringEvents := by
  simp only [resetChanges, List.map_append]
  exact ((((lineChange_sublist 0 _).append (lineChange_sublist 1 _)).append (lineChange_sublist 2 _)).append
    (lineChange_sublist 3 _)).append (lineChange_sublist 4 _)

/-- No line has two events. -/
theorem nodup_resetEvents (n : Nat) (l : Lines) : (resetEvents n l).Nodup :=
  (resetEvents_perm n l).nodup_iff.mpr ((resetChanges_sublist l).nodup (by decide))

theorem mem_resetEvents {n : Nat} {l : Lines} {e : Event} :
    e ∈ resetEvents n l ↔
      (e = .pin .csN true ∧ l.csN = false) ∨ (e = .pin .wrN true ∧ l.wrN = false) ∨
      (e = .pin .rdN true ∧ l.rdN = false) ∨ (e = .pin .data false ∧ l.data = true) ∨
      (e = .dir .input ∧ l.dataDir = .out) := by
  have hdir : l.dataDir ≠ .input ↔ l.dataDir = .out := by cases l.dataDir <;> simp
  rw [(resetEvents_perm n l).mem_iff]
  simp only [resetChanges, List.map_append, List.mem_append, mem_lineChange, or_assoc]
  simp only [Lines.atReset, hdir, Bool.not_eq_true, Bool.not_eq_false]

theorem mem_restoringEvents_of_mem_resetEvents {n : Nat} {l : Lines} {e : Event} (h : e ∈ resetEvents n l) :
    e ∈ restoringEvents :=
  mem_restoringEvents_of_mem_resetChanges ((resetEvents_perm n l).mem_iff.mp h)

/-- A restoring event opens no frame and is no byte. -/
theorem not_opens_of_mem_restoringEvents {e : Event} (h : e ∈ restoringEvents) :
    e ≠ .pin .csN false ∧ ∀ b : Byte, e ≠ .spiByte b := by
  simp only [restoringEvents, List.mem_cons, List.not_mem_nil, or_false] at h
  obtain rfl | rfl | rfl | rfl | rfl := h <;> simp [Lines.atReset]

theorem applyReset_statusWord (s : State) : (applyReset s).statusWord = 0 := by
  rw [State.statusWord, applyReset_fault, applyReset_ready, applyReset_busy]
  decide

theorem step_of_reset {s : State} {rest : List Input} (h : s.inputs = .reset :: rest) :
    step s = .next (applyReset { s with inputs := rest }) := step_of_input h

/-- Settles O49: the state after the step is `applyReset`'s, and its events are those of the lines that change. -/
theorem resetInputRestoresAndClosesFrame : Obligations.ResetInputRestoresAndClosesFrame := by
  intro s rest hs
  exact ⟨_, _, step_of_reset hs, applyReset_statusWord _, rfl, rfl, rfl, rfl, rfl, rfl, rfl, rfl, rfl, fun _ => rfl,
    rfl, rfl, rfl, applyReset_trace _, nodup_resetEvents _ _, fun _ => mem_resetEvents, rfl,
    backend_fbUnspecified s.fb s.resets, rfl⟩

/-- Settles O60: a reset's events are restoring events, and the trace is marked behind them. -/
theorem resetSendsNoFrameAndLeavesChipOpen : Obligations.ResetSendsNoFrameAndLeavesChipOpen := by
  intro s rest hs
  refine ⟨_, _, step_of_reset hs, applyReset_trace _, fun e he => ?_, fun a d => ?_, ?_⟩
  · exact not_opens_of_mem_restoringEvents (mem_restoringEvents_of_mem_resetEvents he)
  · rw [applyReset_chip]
    rfl
  · rw [applyReset_chip]
    rfl

/-! ### What a command frame gives the chip (rules R66, R95, R97) -/

/-- Eight bits in transmit order, read as a byte again (rule R67). -/
theorem ofBoolListBE_byteBits (c : Byte) :
    BitVec.ofBoolListBE
      [c.getLsbD 7, c.getLsbD 6, c.getLsbD 5, c.getLsbD 4, c.getLsbD 3, c.getLsbD 2, c.getLsbD 1, c.getLsbD 0] = c := by
  apply BitVec.eq_of_getLsbD_eq
  intro k hk
  have hk8 : k < 8 := hk
  interval_cases k <;> simp [BitVec.ofBoolListBE, BitVec.getElem_cons]

/-- A command byte, its ninth bit and the bits after it: one complete group, and the groups of the rest. -/
theorem commandGroups_byteBits (c : Byte) (b : Bool) (rest : List Bool) :
    commandGroups (byteBits c ++ b :: rest) = c :: commandGroups rest :=
  congrArg (· :: commandGroups rest) (ofBoolListBE_byteBits c)

/-- The chip `c` after the commands `cs`. -/
def Chip.applied (c : Chip) (cs : List Byte) : Chip := { c with commands := c.commands ++ cs }

theorem Chip.applied_nil (c : Chip) : c.applied [] = c := by
  simp [Chip.applied]

theorem Chip.applied_applied (c : Chip) (cs cs' : List Byte) :
    (c.applied cs).applied cs' = c.applied (cs ++ cs') := by
  simp [Chip.applied]

/-- A command frame gives its command, where the bits after the ninth of its group make no second group. -/
theorem Chip.receive_command (k : Chip) (c : Byte) {tail : List Bool} (h : commandGroups tail = []) :
    k.receive ([true, false, false] ++ byteBits c ++ false :: tail) = k.applied [c] := by
  have hid : ([true, false, false] ++ byteBits c ++ false :: tail).take 3 = [true, false, false] := rfl
  have hdrop : ([true, false, false] ++ byteBits c ++ false :: tail).drop 3 = byteBits c ++ false :: tail := rfl
  rw [Chip.receive, hid, hdrop, if_neg (by simp), if_pos rfl, commandGroups_byteBits, h, Chip.applied]

theorem Chip.receive_gCmd (k : Chip) (c : Byte) : k.receive (bitsMsbFirst (gCmd c)) = k.applied [c] := by
  rw [bitsMsbFirst_gCmd]
  exact k.receive_command c rfl

theorem Chip.receive_sCmd (k : Chip) (c : Byte) : k.receive (bitsMsbFirst (sCmd c)) = k.applied [c] := by
  rw [bitsMsbFirst_sCmd]
  exact k.receive_command c (tail := List.replicate 4 false) rfl

/-! ### What the clear-display gives the chip (rules R66, R171) -/

/-- The chip `c` with 0 at the addresses below `k`. -/
def Chip.cleared (c : Chip) (k : Nat) : Chip :=
  { c with ram := fun a d => if a < k ∧ d < 4 then some false else c.ram a d }

theorem Chip.cleared_zero (c : Chip) : c.cleared 0 = c := by
  simp [Chip.cleared]

/-- GPIO: one write frame of 96 zero nibbles. -/
theorem Chip.receive_clear (c : Chip) :
    c.receive (gWrHeader ++ List.replicate (4 * Config.ramNibbles) false) = c.cleared 96 := by
  rw [gWrHeader, Chip.receive_write _ List.length_replicate, Chip.cleared]
  congr 1
  funext a d
  rw [show bitsToNat (List.replicate 7 false) = 0 from rfl,
    writeNibbles_apply (n := 96) (by rw [List.length_replicate]; rfl) (by decide)]
  simp

/-- SPI: one transaction of a zero nibble. -/
theorem Chip.cleared_receive_zeroNibble (c : Chip) {k : Nat} (hk : k < 128) :
    (c.cleared k).receive (bitsMsbFirst (sData (BitVec.ofNat 7 k) 0)) = c.cleared (k + 1) := by
  have hzero (d : Nat) : (bitsMsbFirst (0 : BitVec 4)).getD d false = false :=
    List.getElem?_getD_replicate_default_eq false 4 d
  have htake := (c.cleared k).receive_take_sData hk 0 3
  rw [List.take_of_length_le (by rw [length_bitsMsbFirst])] at htake
  simp only [hzero] at htake
  rw [htake, Chip.cleared, Chip.cleared]
  congr 1
  funext a d
  by_cases ha : a = k
  · simp [ha]
  · simp [ha, show a < k + 1 ↔ a < k by omega]

/-! ### Frames received one after another -/

/-- Sent from between frames, the events end between frames and the chip becomes what `f` makes of it. -/
def ChipEffect (f : Chip → Chip) (es : List Event) : Prop :=
  ∀ l : Latch, l.csN = true → (es.foldl Latch.after l).csN = true ∧ (es.foldl Latch.after l).chip = f l.chip

theorem ChipEffect.congr {f g : Chip → Chip} {es : List Event} (h : ChipEffect f es) (hfg : ∀ c, f c = g c) :
    ChipEffect g es := by
  rwa [← funext hfg]

theorem ChipEffect.nil : ChipEffect (fun c => c) [] := fun _ h => ⟨h, rfl⟩

theorem ChipEffect.append {f g : Chip → Chip} {es es' : List Event} (h : ChipEffect f es) (h' : ChipEffect g es') :
    ChipEffect (fun c => g (f c)) (es ++ es') := by
  intro l hl
  obtain ⟨hcs, hchip⟩ := h l hl
  obtain ⟨hcs', hchip'⟩ := h' _ hcs
  rw [List.foldl_append]
  exact ⟨hcs', hchip'.trans (congrArg g hchip)⟩

/-- Events that close one frame give the chip that frame. -/
theorem ChipEffect.of_frame {es : List Event} {bits : List Bool}
    (h : ∀ l : Latch, l.csN = true →
      (es.foldl Latch.after l).csN = true ∧ (es.foldl Latch.after l).frames = l.frames ++ [bits]) :
    ChipEffect (·.receive bits) es := by
  intro l hl
  obtain ⟨hcs, hframes⟩ := h l hl
  refine ⟨hcs, ?_⟩
  rw [Latch.chip_of_closed hcs, hframes, Chip.receiveAll_concat, Latch.chip_of_closed hl]

theorem ChipEffect.gpioFrame (bits : List Bool) : ChipEffect (·.receive bits) (gpioFrame bits) :=
  .of_frame fun _ hl => Latch.foldl_gpioFrame bits hl

theorem ChipEffect.spiTxn (w : Word) : ChipEffect (·.receive (bitsMsbFirst w)) (spiTxn w) :=
  .of_frame fun _ hl => Latch.foldl_spiTxn w hl

theorem chipEffect_sendCmd (b : Backend) (c : Byte) : ChipEffect (·.applied [c]) (sendCmd b c) := by
  cases b with
  | gpio => exact (ChipEffect.gpioFrame _).congr fun k => k.receive_gCmd c
  | spi => exact (ChipEffect.spiTxn _).congr fun k => k.receive_sCmd c

theorem chipEffect_sendCmds (b : Backend) (cs : List Byte) : ChipEffect (·.applied cs) (cs.flatMap (sendCmd b)) := by
  induction cs with
  | nil => exact ChipEffect.nil.congr fun k => k.applied_nil.symm
  | cons c rest ih =>
    rw [List.flatMap_cons]
    exact ((chipEffect_sendCmd b c).append ih).congr fun k => k.applied_applied [c] rest

theorem chipEffect_sendZeroNibbles {k : Nat} (hk : k ≤ 128) :
    ChipEffect (·.cleared k) ((List.range k).flatMap fun a => sendNib a 0) := by
  induction k with
  | zero => exact ChipEffect.nil.congr fun c => c.cleared_zero.symm
  | succ k ih =>
    rw [List.range_succ, List.flatMap_append, List.flatMap_singleton]
    exact ((ih (by omega)).append (ChipEffect.spiTxn _)).congr fun c => c.cleared_receive_zeroNibble hk

theorem chipEffect_clearDisplayEvents (b : Backend) : ChipEffect (·.cleared 96) (clearDisplayEvents b) := by
  cases b with
  | gpio => exact (ChipEffect.gpioFrame _).congr Chip.receive_clear
  | spi => exact chipEffect_sendZeroNibbles (by decide)

/-- INIT gives the chip its commands and clears the display RAM, in either backend. -/
theorem chipEffect_initEvents (b : Backend) (cfg : Config) :
    ChipEffect (fun c => (c.applied (initCommands cfg)).cleared 96) (initEvents b cfg) :=
  (chipEffect_sendCmds b (initCommands cfg)).append (chipEffect_clearDisplayEvents b)

/-! ### What INIT leaves (rule R253) -/

/-- The levels at which the bits of a GPIO frame leave the lines: DATA at the last bit, WR_N high (rule R140). -/
theorem Lines.foldl_gpioBits_concat (bits : List Bool) (b : Bool) (l : Lines) :
    ((bits ++ [b]).flatMap gpioBit).foldl Lines.after l = { l with wrN := true, data := b } := by
  induction bits generalizing l with
  | nil => rfl
  | cons c rest ih =>
    rw [List.cons_append, List.flatMap_cons, List.foldl_append, ih]
    rfl

/-- A GPIO frame that ends in bit `b` leaves DATA driven at `b`, and CS_N and WR_N high. -/
theorem Lines.foldl_gpioFrame_concat (bits : List Bool) (b : Bool) (l : Lines) :
    (gpioFrame (bits ++ [b])).foldl Lines.after l =
      { l with csN := true, wrN := true, data := b, dataDir := .out } := by
  rw [gpioFrame, List.foldl_append, List.foldl_append, Lines.foldl_gpioBits_concat]
  rfl

theorem data_dataDir_foldl_initEvents_gpio (cfg : Config) (l : Lines) :
    ((initEvents .gpio cfg).foldl Lines.after l).data = false ∧
      ((initEvents .gpio cfg).foldl Lines.after l).dataDir = .out := by
  have hlast : gWrHeader ++ List.replicate (4 * Config.ramNibbles) false =
      (gWrHeader ++ List.replicate 383 false) ++ [false] := by
    rw [List.append_assoc, ← List.replicate_succ']
    rfl
  rw [initEvents, List.foldl_append, clearDisplayEvents, hlast, Lines.foldl_gpioFrame_concat]
  exact ⟨rfl, rfl⟩

/-- Of an open block's INIT, where the pace covers its end, the chip has every frame. -/
theorem chip_of_init {s t : State} (ho : s.Open) (hinv : s.OutputInv)
    (hp : s.pace.Covers ((initEvents s.backend s.cfg).length + 1)) (h : exec .init s = .next t) :
    t.chip = (s.chip.applied (initCommands s.cfg)).cleared 96 := by
  rw [exec_init_of_covers ho hp] at h
  obtain rfl := Host.Outcome.next.inj h
  obtain ⟨-, heffect⟩ := chipEffect_initEvents s.backend s.cfg _ (State.sinceReset_csN hinv ho.2)
  exact Eq.trans (State.chip_of_append rfl rfl hinv.mark) heffect

/-- Settles O39: INIT ends between frames, and the chip has received its frames. -/
theorem initLeavesBlockAndChipClear : Obligations.InitLeavesBlockAndChipClear := by
  intro s t ho hinv hp h
  obtain ⟨hcs, hwr⟩ : Phase.idle.csN = t.lines.csN ∧ Phase.idle.wrN = t.lines.wrN := by
    have hidle : t.busy = false := (requestsSendWholeFrames .init s t ho hp h).1
    exact (keeps_of_moves Move.outputInv (moves_exec h) hinv).levels_of_idle hidle
  have hcovers := Pace.covers_of_free hp ((initEvents s.backend s.cfg).length + 1)
  rw [chip_of_init ho hinv hcovers h]
  rw [exec_init_of_covers ho hcovers] at h
  obtain rfl := Host.Outcome.next.inj h
  refine ⟨fun x y hx hy => pixel_fbZero s.fb hx hy, rfl, hcs.symm, hwr.symm, fun hb => ?_,
    fun a d ha hd => if_pos ⟨ha, hd⟩, fun a d ha => if_neg fun hlt => absurd hlt.1 (by omega), rfl⟩
  rw [State.afterRequest, hb]
  exact data_dataDir_foldl_initEvents_gpio s.cfg s.lines

end Sys2Proof.Machine
